-- ==== Sys2Proof/Word.lean ====
section
/-! DEFINITION. The widths of `spec/00_scope.md` rules R4 and R5: a register, a memory word, the program counter
and the trailing constant are 64 bits wide, a memory byte 8, an instruction field 4. Nothing else is decided here. -/

namespace Sys2Proof

/-- A 64-bit unsigned word (`XLEN = 64`, R4, R23). `BitVec 64` arithmetic is the arithmetic modulo `2^64` of R5. -/
abbrev Word := BitVec 64

/-- One byte of memory (R21, R30). -/
abbrev Byte := BitVec 8

/-- A 4-bit field of an instruction byte: opcode, function code or register specifier (R51, R52). -/
abbrev Nibble := BitVec 4

end Sys2Proof
end

