-- ==== Sys2Proof/Syntax.lean ====
section
/-! DEFINITION. The instructions as syntax: registers and register specifiers (`spec/10_state.md` R11), the four
formats (`spec/30_encoding.md` R54), and `Instr` with one constructor for each of the 27 rows of
`spec/opcode_table.json` (R58). Register nibbles the machine ignores (R61) are kept as operands, so that no bit of
an encoding is dropped. -/

namespace Sys2Proof

/-- The 15 general registers, in the order of their indices 0 to 14 (R10, R11). -/
inductive Reg where
  | rax | rcx | rdx | rbx | rsp | rbp | rsi | rdi
  | r8 | r9 | r10 | r11 | r12 | r13 | r14
  deriving DecidableEq, Repr

/-- What a register nibble says: a register, or `none` for 0xF, "no register" (`RNONE`, R11, R52). -/
abbrev RegSpec := Option Reg

/-- The four formats of R54. -/
inductive Format where
  | O | R | D | I
  deriving DecidableEq, Repr

/-- The 27 values of byte 0 that select an instruction, by their mnemonics (R58). -/
inductive Op where
  | halt | nop
  | rrmovq | cmovle | cmovl | cmove | cmovne | cmovge | cmovg
  | irmovq | rmmovq | mrmovq
  | addq | subq | andq | xorq
  | jmp | jle | jl | je | jne | jge | jg
  | call | ret | pushq | popq
  deriving DecidableEq, Repr

/-- One constructor per row of the opcode table. `rA`, `rB` are the high and the low nibble of the register byte,
in that order; `fill` is a nibble the machine ignores (R61): the `rA` nibble of `irmovq`, the `rB` nibble of
`pushq` and `popq`. The last word of formats D and I is the constant `valC`: immediate `v`, displacement `d` or
absolute target `dest` (R53). -/
inductive Instr where
  | halt
  | nop
  | rrmovq (rA rB : RegSpec)
  | cmovle (rA rB : RegSpec)
  | cmovl  (rA rB : RegSpec)
  | cmove  (rA rB : RegSpec)
  | cmovne (rA rB : RegSpec)
  | cmovge (rA rB : RegSpec)
  | cmovg  (rA rB : RegSpec)
  | irmovq (fill rB : RegSpec) (v : Word)
  | rmmovq (rA rB : RegSpec) (d : Word)
  | mrmovq (rA rB : RegSpec) (d : Word)
  | addq   (rA rB : RegSpec)
  | subq   (rA rB : RegSpec)
  | andq   (rA rB : RegSpec)
  | xorq   (rA rB : RegSpec)
  | jmp    (dest : Word)
  | jle    (dest : Word)
  | jl     (dest : Word)
  | je     (dest : Word)
  | jne    (dest : Word)
  | jge    (dest : Word)
  | jg     (dest : Word)
  | call   (dest : Word)
  | ret
  | pushq  (rA fill : RegSpec)
  | popq   (rA fill : RegSpec)
  deriving DecidableEq, Repr

end Sys2Proof
end

