-- ==== Sys2Proof/WellFormed.lean ====
section
/-! DEFINITION. Which instructions name a register wherever one is required (`spec/30_encoding.md` R60). -/

namespace Sys2Proof

/-- The register specifiers an instruction requires: the nibbles shown as `a` or `b` in R58 (the table's
"required_register_nibbles"). The ignored nibbles of R61 are not among them. -/
def Instr.required : Instr → List RegSpec
  | .halt | .nop | .ret => []
  | .rrmovq rA rB | .cmovle rA rB | .cmovl rA rB | .cmove rA rB
  | .cmovne rA rB | .cmovge rA rB | .cmovg rA rB => [rA, rB]
  | .irmovq _ rB _ => [rB]
  | .rmmovq rA rB _ | .mrmovq rA rB _ => [rA, rB]
  | .addq rA rB | .subq rA rB | .andq rA rB | .xorq rA rB => [rA, rB]
  | .jmp _ | .jle _ | .jl _ | .je _ | .jne _ | .jge _ | .jg _ | .call _ => []
  | .pushq rA _ | .popq rA _ => [rA]

/-- R60: every required register specifier names a register (none of them is 0xF). -/
def Instr.wellFormed (i : Instr) : Bool := i.required.all Option.isSome

end Sys2Proof
end

