-- ==== Sys2Proof/Decode.lean ====
section
/-! DEFINITION. The encoding tables of `spec/30_encoding.md` (R51 to R61), the decoder (total on any list of bytes,
rejecting by name) and, after it, the encoder written from the same tables. The decoder is the pure function of
R56: it reads fields and never judges a register specifier; the step raises what R57 and R60 ask for. -/

namespace Sys2Proof

/-! ## Bytes, nibbles and little-endian words (R5, R31, R51 to R53) -/

/-- `b[7:4]`, the first field of a byte. -/
def hiNibble (b : Byte) : Nibble := b.extractLsb' 4 4

/-- `b[3:0]`, the second field of a byte. -/
def loNibble (b : Byte) : Nibble := b.extractLsb' 0 4

/-- The byte `{h, l}`: `h` is the high nibble (R5, R32). -/
def nibblePair (h l : Nibble) : Byte := h ++ l

/-- `LE64(b0, ..., b7)` of R5: `b0`, from the lowest address, is the least significant byte. -/
def le64 (b0 b1 b2 b3 b4 b5 b6 b7 : Byte) : Word :=
  b7 ++ b6 ++ b5 ++ b4 ++ b3 ++ b2 ++ b1 ++ b0

/-- `v[8i+7 : 8i]`, the byte of `v` that lies at offset `i` of its eight (R31). -/
def wordByte (v : Word) (i : Nat) : Byte := v.extractLsb' (8 * i) 8

/-- The eight bytes of a word, lowest address first (R31). -/
def wordBytes (v : Word) : List Byte :=
  [wordByte v 0, wordByte v 1, wordByte v 2, wordByte v 3,
   wordByte v 4, wordByte v 5, wordByte v 6, wordByte v 7]

/-! ## Registers (R11) -/

/-- The index of a register, 0 to 14. -/
def Reg.index : Reg → Nibble
  | .rax => 0x0 | .rcx => 0x1 | .rdx => 0x2 | .rbx => 0x3
  | .rsp => 0x4 | .rbp => 0x5 | .rsi => 0x6 | .rdi => 0x7
  | .r8  => 0x8 | .r9  => 0x9 | .r10 => 0xA | .r11 => 0xB
  | .r12 => 0xC | .r13 => 0xD | .r14 => 0xE

/-- The register's name in a textual front-end. -/
def Reg.name : Reg → String
  | .rax => "%rax" | .rcx => "%rcx" | .rdx => "%rdx" | .rbx => "%rbx"
  | .rsp => "%rsp" | .rbp => "%rbp" | .rsi => "%rsi" | .rdi => "%rdi"
  | .r8  => "%r8"  | .r9  => "%r9"  | .r10 => "%r10" | .r11 => "%r11"
  | .r12 => "%r12" | .r13 => "%r13" | .r14 => "%r14"

/-- The registers in index order. -/
def Reg.all : List Reg :=
  [.rax, .rcx, .rdx, .rbx, .rsp, .rbp, .rsi, .rdi, .r8, .r9, .r10, .r11, .r12, .r13, .r14]

/-- The nibble that writes a register specifier: the index, or 0xF for "no register". -/
def regNibble : RegSpec → Nibble
  | some r => r.index
  | none   => 0xF

/-- The register specifier a nibble writes: 0xF selects no register. -/
def regOfNibble (n : Nibble) : RegSpec := Reg.all.find? (fun r => r.index == n)

/-- The register byte: `rA` in the high nibble, `rB` in the low nibble (R52). -/
def regByte (rA rB : RegSpec) : Byte := nibblePair (regNibble rA) (regNibble rB)

/-! ## The opcode map (R58) and what byte 0 decides (R51, R55, R57) -/

/-- Byte 0 of each instruction, the column `b0` of R58. -/
def Op.byte : Op → Byte
  | .halt   => 0x00
  | .nop    => 0x10
  | .rrmovq => 0x20 | .cmovle => 0x21 | .cmovl => 0x22 | .cmove => 0x23
  | .cmovne => 0x24 | .cmovge => 0x25 | .cmovg => 0x26
  | .irmovq => 0x30
  | .rmmovq => 0x40
  | .mrmovq => 0x50
  | .addq   => 0x60 | .subq => 0x61 | .andq => 0x62 | .xorq => 0x63
  | .jmp    => 0x70 | .jle => 0x71 | .jl => 0x72 | .je => 0x73
  | .jne    => 0x74 | .jge => 0x75 | .jg => 0x76
  | .call   => 0x80
  | .ret    => 0x90
  | .pushq  => 0xA0
  | .popq   => 0xB0

/-- The mnemonic of each row of R58. -/
def Op.mnemonic : Op → String
  | .halt   => "halt"   | .nop    => "nop"
  | .rrmovq => "rrmovq" | .cmovle => "cmovle" | .cmovl => "cmovl" | .cmove => "cmove"
  | .cmovne => "cmovne" | .cmovge => "cmovge" | .cmovg => "cmovg"
  | .irmovq => "irmovq" | .rmmovq => "rmmovq" | .mrmovq => "mrmovq"
  | .addq   => "addq"   | .subq   => "subq"   | .andq  => "andq"  | .xorq => "xorq"
  | .jmp    => "jmp"    | .jle    => "jle"    | .jl    => "jl"    | .je   => "je"
  | .jne    => "jne"    | .jge    => "jge"    | .jg    => "jg"
  | .call   => "call"   | .ret    => "ret"    | .pushq => "pushq" | .popq => "popq"

/-- The 27 rows of R58, in its order. -/
def Op.all : List Op :=
  [.halt, .nop, .rrmovq, .cmovle, .cmovl, .cmove, .cmovne, .cmovge, .cmovg,
   .irmovq, .rmmovq, .mrmovq, .addq, .subq, .andq, .xorq,
   .jmp, .jle, .jl, .je, .jne, .jge, .jg, .call, .ret, .pushq, .popq]

/-- The row of R58 that byte 0 selects, if any. -/
def opOfByte (b : Byte) : Option Op := Op.all.find? (fun op => op.byte == b)

/-- `ValidOp(icode, ifun)` of R57, written as the spec writes it. -/
def validOp (icode ifun : Nibble) : Bool :=
  if icode ∈ [0x0#4, 0x1#4, 0x3#4, 0x4#4, 0x5#4, 0x8#4, 0x9#4, 0xA#4, 0xB#4] then ifun == 0
  else if icode = 0x2 then decide (ifun.toNat ≤ 6)
  else if icode = 0x6 then decide (ifun.toNat ≤ 3)
  else if icode = 0x7 then decide (ifun.toNat ≤ 6)
  else false

/-- The format of each opcode: a function of `icode` alone (R54, R55). Opcodes 0xC to 0xF have none. -/
def formatOf (icode : Nibble) : Option Format :=
  match icode.toNat with
  | 0x0 | 0x1 | 0x9 => some .O
  | 0x2 | 0x6 | 0xA | 0xB => some .R
  | 0x3 | 0x4 | 0x5 => some .I
  | 0x7 | 0x8 => some .D
  | _ => none

/-- The length in bytes of each format (R54, R55). -/
def Format.length : Format → Nat
  | .O => 1
  | .R => 2
  | .D => 9
  | .I => 10

/-- The longest instruction, `MAXILEN` (R4). -/
def maxInstrLen : Nat := 10

/-- The format column of R58. -/
def Op.format : Op → Format
  | .halt | .nop | .ret => .O
  | .rrmovq | .cmovle | .cmovl | .cmove | .cmovne | .cmovge | .cmovg
  | .addq | .subq | .andq | .xorq | .pushq | .popq => .R
  | .jmp | .jle | .jl | .je | .jne | .jge | .jg | .call => .D
  | .irmovq | .rmmovq | .mrmovq => .I

/-! ## The decoder (R56) -/

/-- The fields behind byte 0. -/
structure Fields where
  rA   : RegSpec
  rB   : RegSpec
  valC : Word
  deriving DecidableEq, Repr

/-- The constant at the head of a list of bytes, and the bytes after it (R53). -/
def takeConst : List Byte → Option (Word × List Byte)
  | b0 :: b1 :: b2 :: b3 :: b4 :: b5 :: b6 :: b7 :: rest => some (le64 b0 b1 b2 b3 b4 b5 b6 b7, rest)
  | _ => none

/-- `Decode` of R56 behind byte 0: the fields of a format and the bytes left over. Absent fields get the
placeholders of R56 (0xF and 0). `none` when a byte of the format is missing. -/
def takeFields : Format → List Byte → Option (Fields × List Byte)
  | .O, rest => some (⟨none, none, 0⟩, rest)
  | .R, b1 :: rest => some (⟨regOfNibble (hiNibble b1), regOfNibble (loNibble b1), 0⟩, rest)
  | .R, [] => none
  | .D, rest =>
    match takeConst rest with
    | some (c, rest') => some (⟨none, none, c⟩, rest')
    | none => none
  | .I, b1 :: rest =>
    match takeConst rest with
    | some (c, rest') => some (⟨regOfNibble (hiNibble b1), regOfNibble (loNibble b1), c⟩, rest')
    | none => none
  | .I, [] => none

/-- The instruction a row of R58 and the decoded fields make. -/
def Op.build : Op → Fields → Instr
  | .halt,   _ => .halt
  | .nop,    _ => .nop
  | .rrmovq, f => .rrmovq f.rA f.rB
  | .cmovle, f => .cmovle f.rA f.rB
  | .cmovl,  f => .cmovl f.rA f.rB
  | .cmove,  f => .cmove f.rA f.rB
  | .cmovne, f => .cmovne f.rA f.rB
  | .cmovge, f => .cmovge f.rA f.rB
  | .cmovg,  f => .cmovg f.rA f.rB
  | .irmovq, f => .irmovq f.rA f.rB f.valC
  | .rmmovq, f => .rmmovq f.rA f.rB f.valC
  | .mrmovq, f => .mrmovq f.rA f.rB f.valC
  | .addq,   f => .addq f.rA f.rB
  | .subq,   f => .subq f.rA f.rB
  | .andq,   f => .andq f.rA f.rB
  | .xorq,   f => .xorq f.rA f.rB
  | .jmp,    f => .jmp f.valC
  | .jle,    f => .jle f.valC
  | .jl,     f => .jl f.valC
  | .je,     f => .je f.valC
  | .jne,    f => .jne f.valC
  | .jge,    f => .jge f.valC
  | .jg,     f => .jg f.valC
  | .call,   f => .call f.valC
  | .ret,    _ => .ret
  | .pushq,  f => .pushq f.rA f.rB
  | .popq,   f => .popq f.rA f.rB

/-- Why bytes are no instruction. -/
inductive DecodeError where
  /-- Byte 0 selects no row of R58 (R57, R59); the step raises InvalidInstruction. -/
  | invalidOp
  /-- A byte of the instruction is missing from the list (byte 0 included); the step, which hands the decoder every
  byte that lies inside memory, raises InvalidAddress (R35). -/
  | truncated
  deriving DecidableEq, Repr

/-- What decoding a list of bytes gives. -/
inductive Decoded where
  /-- An instruction and the bytes after it. -/
  | ok (i : Instr) (rest : List Byte)
  | rejected (e : DecodeError)
  deriving DecidableEq, Repr

/-- The decoder: the instruction at the head of a list of bytes, in address order (R50, R56, R63). -/
def decode : List Byte → Decoded
  | [] => .rejected .truncated
  | b0 :: rest =>
    match opOfByte b0 with
    | none => .rejected .invalidOp
    | some op =>
      match takeFields op.format rest with
      | none => .rejected .truncated
      | some (f, rest') => .ok (op.build f) rest'

/-! ## The encoder -/

/-- The row of R58 an instruction belongs to. -/
def Instr.op : Instr → Op
  | .halt => .halt
  | .nop => .nop
  | .rrmovq .. => .rrmovq
  | .cmovle .. => .cmovle
  | .cmovl .. => .cmovl
  | .cmove .. => .cmove
  | .cmovne .. => .cmovne
  | .cmovge .. => .cmovge
  | .cmovg .. => .cmovg
  | .irmovq .. => .irmovq
  | .rmmovq .. => .rmmovq
  | .mrmovq .. => .mrmovq
  | .addq .. => .addq
  | .subq .. => .subq
  | .andq .. => .andq
  | .xorq .. => .xorq
  | .jmp .. => .jmp
  | .jle .. => .jle
  | .jl .. => .jl
  | .je .. => .je
  | .jne .. => .jne
  | .jge .. => .jge
  | .jg .. => .jg
  | .call .. => .call
  | .ret => .ret
  | .pushq .. => .pushq
  | .popq .. => .popq

/-- The length of an instruction in bytes (R55). -/
def Instr.length (i : Instr) : Nat := i.op.format.length

/-- The bytes of an instruction, lowest address first (R50, R54, R58). -/
def encode : Instr → List Byte
  | .halt => [Op.halt.byte]
  | .nop => [Op.nop.byte]
  | .rrmovq rA rB => [Op.rrmovq.byte, regByte rA rB]
  | .cmovle rA rB => [Op.cmovle.byte, regByte rA rB]
  | .cmovl rA rB => [Op.cmovl.byte, regByte rA rB]
  | .cmove rA rB => [Op.cmove.byte, regByte rA rB]
  | .cmovne rA rB => [Op.cmovne.byte, regByte rA rB]
  | .cmovge rA rB => [Op.cmovge.byte, regByte rA rB]
  | .cmovg rA rB => [Op.cmovg.byte, regByte rA rB]
  | .irmovq fill rB v => Op.irmovq.byte :: regByte fill rB :: wordBytes v
  | .rmmovq rA rB d => Op.rmmovq.byte :: regByte rA rB :: wordBytes d
  | .mrmovq rA rB d => Op.mrmovq.byte :: regByte rA rB :: wordBytes d
  | .addq rA rB => [Op.addq.byte, regByte rA rB]
  | .subq rA rB => [Op.subq.byte, regByte rA rB]
  | .andq rA rB => [Op.andq.byte, regByte rA rB]
  | .xorq rA rB => [Op.xorq.byte, regByte rA rB]
  | .jmp dest => Op.jmp.byte :: wordBytes dest
  | .jle dest => Op.jle.byte :: wordBytes dest
  | .jl dest => Op.jl.byte :: wordBytes dest
  | .je dest => Op.je.byte :: wordBytes dest
  | .jne dest => Op.jne.byte :: wordBytes dest
  | .jge dest => Op.jge.byte :: wordBytes dest
  | .jg dest => Op.jg.byte :: wordBytes dest
  | .call dest => Op.call.byte :: wordBytes dest
  | .ret => [Op.ret.byte]
  | .pushq rA fill => [Op.pushq.byte, regByte rA fill]
  | .popq rA fill => [Op.popq.byte, regByte rA fill]

/-! ## The opcode table's numbering of an instruction's bits -/

/-- The first `n` bytes of a number whose bit 0 is the least significant bit of the first byte. -/
def bytesOfNat : Nat → Nat → List Byte
  | 0, _ => []
  | n + 1, w => BitVec.ofNat 8 w :: bytesOfNat n (w / 256)

/-- The longest instruction's bytes for a table word: the low `nbits` bits of `w`, every later bit 0. -/
def tableBytes (nbits w : Nat) : List Byte := bytesOfNat maxInstrLen (w % 2 ^ nbits)

/-- The instruction the decoder reads from a table word, `none` where it rejects. -/
def decodeTableWord (nbits w : Nat) : Option Instr :=
  match decode (tableBytes nbits w) with
  | .ok i _ => some i
  | .rejected _ => none

end Sys2Proof
end

