-- ==== Sys2Proof/Config.lean ====
section
/-! DEFINITION. The parameters the spec leaves to the implementation (`spec/00_scope.md` rule R4): the size of
memory and the two open readings of `pushq %rsp` and `popq %rsp`. They are plain data, so that every statement can
quantify over all their values and a run can still be evaluated: State carries them and no step writes them (log
entry 1). The step budget of `Run` is an argument of `Sys2Proof.Machine.run` (R172) and stands here as the
reference's number only. -/

namespace Sys2Proof

/-- `PUSHQ_SP_VALUE` (R4, R152, decision D17): what `pushq %rsp` stores, the stack pointer before or after the
decrement. The source is silent; both values stay allowed. -/
inductive PushqSp where
  | old
  | new
  deriving DecidableEq, Repr

/-- `POPQ_SP_RESULT` (R4, R153, decision D18): what `%rsp` holds after `popq %rsp`. The source is silent; all
three values stay allowed. -/
inductive PopqSp where
  | loaded
  | loadedPlus8
  | oldPlus8
  deriving DecidableEq, Repr

/-- The parameters of one machine. -/
structure Config where
  /-- `MEM_SIZE`, written `N`: the number of bytes of memory. -/
  memSize : Nat
  /-- `PUSHQ_SP_VALUE`. -/
  pushqSp : PushqSp
  /-- `POPQ_SP_RESULT`. -/
  popqSp  : PopqSp
  deriving DecidableEq, Repr

/-- The range of `N`: at least 1000 by the source, at most `2^63` by decision D3 (R4). -/
abbrev Config.Ok (c : Config) : Prop := 1000 ≤ c.memSize ∧ c.memSize ≤ 2 ^ 63

/-- The reference's values (R4): 5000 bytes of memory, and the spec's defaults for the two open readings. -/
def Config.reference : Config := ⟨5000, .old, .loaded⟩

/-- `STEP_BUDGET` of the reference: "the reference caps at 1000 steps" (R4, R172). -/
def Config.referenceBudget : Nat := 1000

end Sys2Proof
end

