-- ==== Sys2Proof/Machine/State.lean ====
section
/-! DEFINITION. The state of the machine (`spec/10_state.md`, the closed list at its head), the reasons a step can
stop, and the state after Reset (R24, R180). -/

namespace Sys2Proof.Machine

/-- The register file: 15 independent 64-bit words (R10), one field for each index of R11. -/
structure RegFile where
  rax : Word
  rcx : Word
  rdx : Word
  rbx : Word
  rsp : Word
  rbp : Word
  rsi : Word
  rdi : Word
  r8  : Word
  r9  : Word
  r10 : Word
  r11 : Word
  r12 : Word
  r13 : Word
  r14 : Word
  deriving DecidableEq, Repr

/-- The three condition flags, each a boolean (R16). -/
structure Flags where
  /-- overflow -/
  OF : Bool
  /-- sign -/
  SF : Bool
  /-- zero -/
  ZF : Bool
  deriving DecidableEq, Repr

/-- The status register: `running` is the only non-terminal value (R18, R160). -/
inductive Status where
  | running
  | halted
  | invalidAddress
  | invalidInstruction
  deriving DecidableEq, Repr

/-- What `raise` may raise (R6, R161, R162). -/
inductive Exc where
  | invalidAddress
  | invalidInstruction
  deriving DecidableEq, Repr

/-- Memory: the bytes that differ from what an unlisted offset reads as, by rising offset (R21, R30). -/
abbrev Memory := List Host.Cell

/-- What an offset the list does not name reads as: 0x00, the reset contents of every byte (R24). -/
def Memory.unlisted : Byte := 0

/-- Offsets rise strictly from `lo` on, and no listed byte equals `Memory.unlisted`. -/
def Memory.wfFrom : Nat → Memory → Bool
  | _, [] => true
  | lo, (a, b) :: m => decide (lo ≤ a) && (b != Memory.unlisted) && Memory.wfFrom (a + 1) m

/-- The canonical form of memory: equal memories are equal lists. -/
def Memory.wf (m : Memory) : Bool := Memory.wfFrom 0 m

/-- Every listed offset lies below `n` (R39: offsets `0 .. N-1` are memory, nothing else is). -/
def Memory.below (n : Nat) (m : Memory) : Bool := m.all (fun c => decide (c.1 < n))

/-- The whole machine. The first five fields below `cfg` are the document's list `registers`, `program_counter`,
flags, `status` and `memory`; there is nothing else (R19, R20, R22). -/
structure State where
  /-- The model's own field: the parameters of this machine (R4), which no step writes. -/
  cfg    : Config
  /-- `x[0] .. x[14]` -/
  regs   : RegFile
  /-- The program counter, 64 bits wide (R14, decision D2). -/
  pc     : Word
  /-- `OF`, `SF`, `ZF` -/
  flags  : Flags
  /-- `status` -/
  status : Status
  /-- `mem[0] .. mem[N-1]` -/
  mem    : Memory
  deriving DecidableEq, Repr

/-- Reasons for the machine to stop with a fault of the model: there is none. Both errors of the spec are values of
`status`, so a step that raises one answers a next state (R160, R165, R166), and a step in a terminal status answers
the same state (R84). -/
inductive Fault where
  deriving DecidableEq, Repr

/-- Reasons to give no meaning. -/
inductive Refusal where
  /-- Raised by an arm of `exec` whose instruction has no meaning yet; no arm does. Safe: such a step has no next state. -/
  | notModelled (mnemonic : String)
  /-- Raised by `load` for an image longer than memory: "otherwise the load is refused; no machine state is defined"
  (R183). Safe: no run starts from such a load. No step raises it. -/
  | imageTooLong
  deriving DecidableEq, Repr

/-- All registers zero. -/
def RegFile.zero : RegFile := ⟨0, 0, 0, 0, 0, 0, 0, 0, 0, 0, 0, 0, 0, 0, 0⟩

/-- Reset of the machine with the given parameters: "all-zero state and Running status" (R24, R180). -/
def State.resetWith (c : Config) : State where
  cfg    := c
  regs   := RegFile.zero
  pc     := 0
  flags  := ⟨false, false, false⟩
  status := .running
  mem    := []

/-- Reset of the reference machine: `N = 5000`, both open readings at the spec's defaults (R4). -/
def State.reset : State := State.resetWith Config.reference

end Sys2Proof.Machine
end

