-- ==== Sys2Proof/Machine/Ops.lean ====
section
/-! DEFINITION. The named operations over registers, memory, program counter and status: the primitives of
`spec/00_scope.md` R6 and `spec/20_memory.md` R33 to R35, `raise`, and fetching the next instruction. -/

namespace Sys2Proof.Machine

/-- What a step, or one instruction, answers. -/
abbrev Result := Host.Outcome State Fault Refusal

/-! ## Registers (R6, R10, R12) -/

/-- One register of the file. -/
def RegFile.get (f : RegFile) : Reg → Word
  | .rax => f.rax | .rcx => f.rcx | .rdx => f.rdx | .rbx => f.rbx
  | .rsp => f.rsp | .rbp => f.rbp | .rsi => f.rsi | .rdi => f.rdi
  | .r8  => f.r8  | .r9  => f.r9  | .r10 => f.r10 | .r11 => f.r11
  | .r12 => f.r12 | .r13 => f.r13 | .r14 => f.r14

/-- The file with one register written. -/
def RegFile.set (f : RegFile) (r : Reg) (v : Word) : RegFile :=
  match r with
  | .rax => { f with rax := v } | .rcx => { f with rcx := v }
  | .rdx => { f with rdx := v } | .rbx => { f with rbx := v }
  | .rsp => { f with rsp := v } | .rbp => { f with rbp := v }
  | .rsi => { f with rsi := v } | .rdi => { f with rdi := v }
  | .r8  => { f with r8 := v }  | .r9  => { f with r9 := v }
  | .r10 => { f with r10 := v } | .r11 => { f with r11 := v }
  | .r12 => { f with r12 := v } | .r13 => { f with r13 := v }
  | .r14 => { f with r14 := v }

/-- `x[i]` (R6). -/
def State.reg (s : State) (r : Reg) : Word := s.regs.get r

/-- `x[i] <- v` (R6). -/
def State.setReg (s : State) (r : Reg) (v : Word) : State := { s with regs := s.regs.set r v }

/-- `pc <- target` (R6). -/
def State.setPc (s : State) (target : Word) : State := { s with pc := target }

/-- Writes the three flags together (R126). -/
def State.setFlags (s : State) (f : Flags) : State := { s with flags := f }

/-- `status <- v` (R18). -/
def State.setStatus (s : State) (v : Status) : State := { s with status := v }

/-- Replaces memory. -/
def State.setMem (s : State) (m : Memory) : State := { s with mem := m }

/-- `valP = pc + len`: the address after an instruction of the given format (R6, R15, R55). -/
def State.valP (s : State) (f : Format) : Word := s.pc + BitVec.ofNat 64 f.length

/-- The spec's 2-bit code of a status, for a hardware port (R18, decision D19). No rule depends on it. -/
def Status.code : Status → BitVec 2
  | .running => 0
  | .halted => 1
  | .invalidAddress => 2
  | .invalidInstruction => 3

/-! ## Exceptions (R6, R165 to R167) -/

/-- The terminal status an exception ends the run with (R160). -/
def Exc.status : Exc → Status
  | .invalidAddress => .invalidAddress
  | .invalidInstruction => .invalidInstruction

/-- `raise E`: `status <- E` and nothing else; `pc` stays at the faulting instruction, registers, flags and memory
keep their values (R6, R165). Nothing is saved and no handler is entered (R166), and there is no return from it
(R167): the run is over. -/
def raise (e : Exc) (s : State) : Result := .next (s.setStatus e.status)

/-! ## Memory (R21, R30 to R39) -/

/-- `mem[a]`. -/
def Memory.read : Memory → Nat → Byte
  | [], _ => Memory.unlisted
  | (k, v) :: m, a => if a < k then Memory.unlisted else if a = k then v else Memory.read m a

/-- `mem[a] <- b`, in canonical form. -/
def Memory.write : Memory → Nat → Byte → Memory
  | [], a, b => if b = Memory.unlisted then [] else [(a, b)]
  | (k, v) :: m, a, b =>
    if a < k then (if b = Memory.unlisted then (k, v) :: m else (a, b) :: (k, v) :: m)
    else if a = k then (if b = Memory.unlisted then m else (a, b) :: m)
    else (k, v) :: Memory.write m a b

/-- The `n` bytes from offset `a` on, lowest first. -/
def Memory.readBytes (m : Memory) : Nat → Nat → List Byte
  | _, 0 => []
  | a, n + 1 => m.read a :: Memory.readBytes m (a + 1) n

/-- Writes a list of bytes from offset `a` on, lowest first. -/
def Memory.writeBytes : Memory → Nat → List Byte → Memory
  | m, _, [] => m
  | m, a, b :: bs => Memory.writeBytes (m.write a b) (a + 1) bs

/-- The little-endian word at `a` (R31). -/
def Memory.readWord (m : Memory) (a : Nat) : Word :=
  le64 (m.read a) (m.read (a + 1)) (m.read (a + 2)) (m.read (a + 3))
    (m.read (a + 4)) (m.read (a + 5)) (m.read (a + 6)) (m.read (a + 7))

/-- Stores a word little-endian at `a` (R31). -/
def Memory.writeWord (m : Memory) (a : Nat) (v : Word) : Memory := m.writeBytes a (wordBytes v)

/-- The word access at `addr` lies inside memory: not `addr + 7 > N - 1`, on unbounded integers (R33, R34). -/
def State.wordInBounds (s : State) (addr : Word) : Bool := decide (addr.toNat + 8 ≤ s.cfg.memSize)

/-- `MemRead(addr, 8)` (R33). -/
def memRead (s : State) (addr : Word) : Except Exc Word :=
  if s.wordInBounds addr then .ok (s.mem.readWord addr.toNat) else .error .invalidAddress

/-- `MemWrite(addr, 8, v)` (R34): either all eight bytes are written or none. -/
def memWrite (s : State) (addr v : Word) : Except Exc State :=
  if s.wordInBounds addr then .ok (s.setMem (s.mem.writeWord addr.toNat v)) else .error .invalidAddress

/-- `FetchByte(a)` (R35), also the host's read of one byte (R174). -/
def fetchByte (s : State) (a : Nat) : Except Exc Byte :=
  if a < s.cfg.memSize then .ok (s.mem.read a) else .error .invalidAddress

/-! ## The next instruction (R35, R56, R80) -/

/-- The bytes at `pc, pc+1, ...` that lie inside memory, at most the longest instruction's ten: the decoder's
window (R56). The decoder looks at the bytes of one instruction only, so a byte behind it never matters (R35). -/
def fetchWindow (s : State) : List Byte :=
  s.mem.readBytes s.pc.toNat (min maxInstrLen (s.cfg.memSize - s.pc.toNat))

/-- What a rejection of the decoder raises: a byte outside memory is InvalidAddress (R35), a byte 0 that is no
instruction InvalidInstruction (R59). The decoder judges byte 0 before it asks for the rest, which is the order
of R164. -/
def DecodeError.exc : DecodeError → Exc
  | .invalidOp => .invalidInstruction
  | .truncated => .invalidAddress

/-- Fetch and decode at `pc`. -/
def fetch (s : State) : Except Exc Instr :=
  match decode (fetchWindow s) with
  | .ok i _ => .ok i
  | .rejected e => .error (DecodeError.exc e)

end Sys2Proof.Machine
end

