-- ==== Sys2Proof/Machine/Flags.lean ====
section
/-! DEFINITION. The ALU with its flag computation (`spec/43_alu.md` R120 to R126) and the condition logic shared by
jumps and conditional moves (`spec/41_moves_and_conditions.md` R90). -/

namespace Sys2Proof.Machine

/-! ## Word arithmetic (R121 to R124) -/

/-- `sign(v)`: bit 63 (R5). -/
def sign (v : Word) : Bool := v.msb

/-- `neg64(v) = ((v XOR (2^64-1)) + 1) mod 2^64`, the document's twosComplementNegate (R5). -/
def neg64 (v : Word) : Word := (v ^^^ BitVec.allOnes 64) + 1

/-- `toSigned64(u)` (R124). -/
def toSigned64 (u : Word) : Int := if u.toNat < 2 ^ 63 then (u.toNat : Int) else (u.toNat : Int) - 2 ^ 64

/-- `toUnsigned64(s)`: `s mod 2^64` (R5, R124). -/
def toUnsigned64 (x : Int) : Word := BitVec.ofInt 64 x

/-- `addOverflowing(p, q)` (R122): the wrapped sum, and whether two operands of one sign gave a result of the other. -/
def addOverflowing (p q : Word) : Word × Bool :=
  (p + q, (sign p == sign q) && (sign (p + q) != sign p))

/-- `subOverflowing(p, q)` (R123): the addition of the negated subtrahend, flag included. For the subtrahend `2^63`
the flag is the sign of `p`, the opposite of true signed overflow (conflict C5). -/
def subOverflowing (p q : Word) : Word × Bool := addOverflowing p (neg64 q)

/-! ## The ALU (R120, R125, R126) -/

/-- The four functions of opcode 6. -/
inductive AluFn where
  | add | sub | and | xor
  deriving DecidableEq, Repr

/-- Result and overflow of R120's table: `a` is the source `x[rA]`, `b` the destination `x[rB]`, the left operand. -/
def aluResult (fn : AluFn) (a b : Word) : Word × Bool :=
  match fn with
  | .add => addOverflowing b a
  | .sub => subOverflowing b a
  | .and => (b &&& a, false)
  | .xor => (b ^^^ a, false)

/-- The flags a result writes (R126). -/
def resultFlags (r : Word) (overflow : Bool) : Flags :=
  { OF := overflow, SF := sign r, ZF := r == 0 }

/-- The flags an ALU function writes. -/
def aluFlags (fn : AluFn) (a b : Word) : Flags :=
  resultFlags (aluResult fn a b).1 (aluResult fn a b).2

/-! ## The condition logic (R90) -/

/-- The rows of the condition table, function codes 0 to 6. -/
inductive CondFn where
  | always | le | l | e | ne | ge | g
  deriving DecidableEq, Repr

/-- `Cond(ifun)` over the flags before the step. `ge` is the document's formula with its `ZF or`. -/
def condHolds (c : CondFn) (f : Flags) : Bool :=
  match c with
  | .always => true
  | .le => f.ZF || (f.SF != f.OF)
  | .l  => f.SF != f.OF
  | .e  => f.ZF
  | .ne => !f.ZF
  | .ge => f.ZF || (f.SF == f.OF)
  | .g  => !f.ZF && (f.SF == f.OF)

end Sys2Proof.Machine
end

