-- ==== Sys2Proof/Machine/Operands.lean ====
section
/-! DEFINITION. The operand forms: register operands, which must name a register (`spec/30_encoding.md` R60), the one
addressing mode (`spec/42_memory_moves.md` R110), and the stack operands (`spec/45_stack_call.md` R149). -/

namespace Sys2Proof.Machine

/-- One required register operand: 0xF raises InvalidInstruction, before anything else the instruction does. -/
def withReg (r : RegSpec) (s : State) (k : Reg → Result) : Result :=
  match r with
  | some r => k r
  | none => raise .invalidInstruction s

/-- Two required register operands. -/
def withRegs (rA rB : RegSpec) (s : State) (k : Reg → Reg → Result) : Result :=
  withReg rA s fun a => withReg rB s fun b => k a b

/-- Base plus displacement, `EA = (x[rB] + valC) mod 2^64` (R110). -/
def effAddr (s : State) (base : Reg) (disp : Word) : Word := s.reg base + disp

/-- The address a push writes: `(x[4] - 8) mod 2^64` (R149). -/
def pushAddr (s : State) : Word := s.reg .rsp - 8

/-- The address a pop reads: `x[4]` (R149). -/
def popAddr (s : State) : Word := s.reg .rsp

/-- Pushes a word: the store at the decremented stack pointer, then the decrement (R149). A store out of bounds
leaves the stack pointer as it was. -/
def push (s : State) (v : Word) : Except Exc State :=
  match memWrite s (pushAddr s) v with
  | .ok t => .ok (t.setReg .rsp (pushAddr s))
  | .error e => .error e

/-- Pops a word: the load at the stack pointer, then the increment (R149). -/
def pop (s : State) : Except Exc (Word × State) :=
  match memRead s (popAddr s) with
  | .ok v => .ok (v, s.setReg .rsp (s.reg .rsp + 8))
  | .error e => .error e

/-- The value `pushq` stores: the register as it was before the step; for `%rsp` the parameter `PUSHQ_SP_VALUE`
decides between the old and the decremented pointer (R152). -/
def pushValue (s : State) (a : Reg) : Word :=
  if a = .rsp then
    match s.cfg.pushqSp with
    | .old => s.reg .rsp
    | .new => pushAddr s
  else s.reg a

/-- The register write of `popq` after the pop: the loaded word; for `%rsp`, which the pop has just incremented, the
parameter `POPQ_SP_RESULT` decides (R153). `t` is the state after the pop. -/
def popInto (t : State) (a : Reg) (v : Word) : State :=
  if a = .rsp then
    match t.cfg.popqSp with
    | .loaded => t.setReg .rsp v
    | .loadedPlus8 => t.setReg .rsp (v + 8)
    | .oldPlus8 => t
  else t.setReg a v

end Sys2Proof.Machine
end

