-- ==== Sys2Proof/Machine/Alu.lean ====
section
/-! DEFINITION. `addq`, `subq`, `andq`, `xorq` (`spec/43_alu.md` R127 to R130). -/

namespace Sys2Proof.Machine

/-- What opcode 6 shares: `x[rB] <- x[rB] OP x[rA]`, all three flags, `pc <- valP`. -/
def aluOp (fn : AluFn) (rA rB : RegSpec) (s : State) : Result :=
  withRegs rA rB s fun a b =>
    .next (((s.setReg b (aluResult fn (s.reg a) (s.reg b)).1).setFlags
      (aluFlags fn (s.reg a) (s.reg b))).setPc (s.valP .R))

/-- R127. -/
def execAddq (rA rB : RegSpec) (s : State) : Result := aluOp .add rA rB s

/-- R128: the subtrahend is `x[rA]`. -/
def execSubq (rA rB : RegSpec) (s : State) : Result := aluOp .sub rA rB s

/-- R129. -/
def execAndq (rA rB : RegSpec) (s : State) : Result := aluOp .and rA rB s

/-- R130. -/
def execXorq (rA rB : RegSpec) (s : State) : Result := aluOp .xor rA rB s

end Sys2Proof.Machine
end

