-- ==== Sys2Proof/Machine/Control.lean ====
section
/-! DEFINITION. `halt` and `nop` (`spec/40_step_halt_nop.md` R82, R83). -/

namespace Sys2Proof.Machine

/-- R82: `status <- Halted`; `pc` stays at the halt byte (conflict C2). -/
def execHalt (s : State) : Result := .next (s.setStatus .halted)

/-- R83: `pc <- valP`. -/
def execNop (s : State) : Result := .next (s.setPc (s.valP .O))

end Sys2Proof.Machine
end

