-- ==== Sys2Proof/Machine/Jumps.lean ====
section
/-! DEFINITION. The seven jumps (`spec/44_jumps.md` R140 to R147). -/

namespace Sys2Proof.Machine

/-- What opcode 7 shares: the absolute target if the condition holds, else `valP`. The target is not checked (R140). -/
def jump (c : CondFn) (dest : Word) (s : State) : Result :=
  .next (s.setPc (if condHolds c s.flags then dest else s.valP .D))

/-- R141. -/
def execJmp (dest : Word) (s : State) : Result := jump .always dest s

/-- R142. -/
def execJle (dest : Word) (s : State) : Result := jump .le dest s

/-- R143. -/
def execJl (dest : Word) (s : State) : Result := jump .l dest s

/-- R144. -/
def execJe (dest : Word) (s : State) : Result := jump .e dest s

/-- R145. -/
def execJne (dest : Word) (s : State) : Result := jump .ne dest s

/-- R146. -/
def execJge (dest : Word) (s : State) : Result := jump .ge dest s

/-- R147. -/
def execJg (dest : Word) (s : State) : Result := jump .g dest s

end Sys2Proof.Machine
end

