-- ==== Sys2Proof/Machine/MemoryMoves.lean ====
section
/-! DEFINITION. The store and the load (`spec/42_memory_moves.md` R111, R112): `rB`, the low nibble, is the base
register and `rA`, the high nibble, the data register of both (conflict C3). -/

namespace Sys2Proof.Machine

/-- R111: `MemWrite(EA, 8, x[rA])`, then `pc <- valP`. -/
def execRmmovq (rA rB : RegSpec) (d : Word) (s : State) : Result :=
  withRegs rA rB s fun a b =>
    match memWrite s (effAddr s b d) (s.reg a) with
    | .ok t => .next (t.setPc (s.valP .I))
    | .error e => raise e s

/-- R112: `x[rA] <- MemRead(EA, 8)`, then `pc <- valP`. -/
def execMrmovq (rA rB : RegSpec) (d : Word) (s : State) : Result :=
  withRegs rA rB s fun a b =>
    match memRead s (effAddr s b d) with
    | .ok v => .next ((s.setReg a v).setPc (s.valP .I))
    | .error e => raise e s

end Sys2Proof.Machine
end

