-- ==== Sys2Proof/Machine/Moves.lean ====
section
/-! DEFINITION. Register moves, conditional moves and the immediate move (`spec/41_moves_and_conditions.md` R91 to
R98). -/

namespace Sys2Proof.Machine

/-- What opcode 2 shares: `x[rB] <- x[rA]` if the condition holds; `pc <- valP` either way. The register
specifiers are checked first, whatever the flags (R60). -/
def condMove (c : CondFn) (rA rB : RegSpec) (s : State) : Result :=
  withRegs rA rB s fun a b =>
    .next ((if condHolds c s.flags then s.setReg b (s.reg a) else s).setPc (s.valP .R))

/-- R91. -/
def execRrmovq (rA rB : RegSpec) (s : State) : Result := condMove .always rA rB s

/-- R92. -/
def execCmovle (rA rB : RegSpec) (s : State) : Result := condMove .le rA rB s

/-- R93. -/
def execCmovl (rA rB : RegSpec) (s : State) : Result := condMove .l rA rB s

/-- R94. -/
def execCmove (rA rB : RegSpec) (s : State) : Result := condMove .e rA rB s

/-- R95. -/
def execCmovne (rA rB : RegSpec) (s : State) : Result := condMove .ne rA rB s

/-- R96. -/
def execCmovge (rA rB : RegSpec) (s : State) : Result := condMove .ge rA rB s

/-- R97. -/
def execCmovg (rA rB : RegSpec) (s : State) : Result := condMove .g rA rB s

/-- R98: `x[rB] <- valC`. The `rA` nibble is ignored (R61). -/
def execIrmovq (_fill rB : RegSpec) (v : Word) (s : State) : Result :=
  withReg rB s fun b => .next ((s.setReg b v).setPc (s.valP .I))

end Sys2Proof.Machine
end

