-- ==== Sys2Proof/Machine/Stack.lean ====
section
/-! DEFINITION. `call`, `ret`, `pushq`, `popq` (`spec/45_stack_call.md` R150 to R153). -/

namespace Sys2Proof.Machine

/-- R150: pushes the return address `pc + 9`, then jumps to the target, which is not checked. -/
def execCall (dest : Word) (s : State) : Result :=
  match push s (s.valP .D) with
  | .ok t => .next (t.setPc dest)
  | .error e => raise e s

/-- R151: pops the word that becomes `pc`. -/
def execRet (s : State) : Result :=
  match pop s with
  | .ok (v, t) => .next (t.setPc v)
  | .error e => raise e s

/-- R152. The `rB` nibble is ignored (R61). -/
def execPushq (rA _fill : RegSpec) (s : State) : Result :=
  withReg rA s fun a =>
    match push s (pushValue s a) with
    | .ok t => .next (t.setPc (s.valP .R))
    | .error e => raise e s

/-- R153. The `rB` nibble is ignored (R61). -/
def execPopq (rA _fill : RegSpec) (s : State) : Result :=
  withReg rA s fun a =>
    match pop s with
    | .ok (v, t) => .next ((popInto t a v).setPc (s.valP .R))
    | .error e => raise e s

end Sys2Proof.Machine
end

