-- ==== Sys2Proof/Machine/Dispatch.lean ====
section
/-! DEFINITION. Dispatch of an instruction to its meaning, one arm per constructor (`spec/40_step_halt_nop.md` R81). -/

namespace Sys2Proof.Machine

def exec (i : Instr) (s : State) : Host.Outcome State Fault Refusal :=
  match i with
  | .halt => Sys2Proof.Machine.execHalt s
  | .nop => Sys2Proof.Machine.execNop s
  | .rrmovq rA rB => Sys2Proof.Machine.execRrmovq rA rB s
  | .cmovle rA rB => Sys2Proof.Machine.execCmovle rA rB s
  | .cmovl rA rB => Sys2Proof.Machine.execCmovl rA rB s
  | .cmove rA rB => Sys2Proof.Machine.execCmove rA rB s
  | .cmovne rA rB => Sys2Proof.Machine.execCmovne rA rB s
  | .cmovge rA rB => Sys2Proof.Machine.execCmovge rA rB s
  | .cmovg rA rB => Sys2Proof.Machine.execCmovg rA rB s
  | .irmovq fill rB v => Sys2Proof.Machine.execIrmovq fill rB v s
  | .rmmovq rA rB d => Sys2Proof.Machine.execRmmovq rA rB d s
  | .mrmovq rA rB d => Sys2Proof.Machine.execMrmovq rA rB d s
  | .addq rA rB => Sys2Proof.Machine.execAddq rA rB s
  | .subq rA rB => Sys2Proof.Machine.execSubq rA rB s
  | .andq rA rB => Sys2Proof.Machine.execAndq rA rB s
  | .xorq rA rB => Sys2Proof.Machine.execXorq rA rB s
  | .jmp dest => Sys2Proof.Machine.execJmp dest s
  | .jle dest => Sys2Proof.Machine.execJle dest s
  | .jl dest => Sys2Proof.Machine.execJl dest s
  | .je dest => Sys2Proof.Machine.execJe dest s
  | .jne dest => Sys2Proof.Machine.execJne dest s
  | .jge dest => Sys2Proof.Machine.execJge dest s
  | .jg dest => Sys2Proof.Machine.execJg dest s
  | .call dest => Sys2Proof.Machine.execCall dest s
  | .ret => Sys2Proof.Machine.execRet s
  | .pushq rA fill => Sys2Proof.Machine.execPushq rA fill s
  | .popq rA fill => Sys2Proof.Machine.execPopq rA fill s

end Sys2Proof.Machine
end

