-- ==== Sys2Proof/Machine/Step.lean ====
section
/-! DEFINITION. One step (`spec/40_step_halt_nop.md` R80, R84), and the host's placing of one instruction where the
next step fetches it. -/

namespace Sys2Proof.Machine

/-- `Step` of R80: in a terminal status nothing changes (R84); else the instruction at `pc` is fetched, decoded and
executed, or the exception of its fetch is raised. -/
def step (s : State) : Host.Outcome State Fault Refusal :=
  match s.status with
  | .running =>
    match fetch s with
    | .ok i => exec i s
    | .error e => raise e s
  | .halted => .next s
  | .invalidAddress => .next s
  | .invalidInstruction => .next s

/-- `s` with the bytes of a table word stored at `pc` on, those of them that lie inside memory. Nothing else
changes: the machine fetches at `pc`. -/
def State.withFetchWord (s : State) (nbits w : Nat) : State :=
  s.setMem (s.mem.writeBytes s.pc.toNat
    ((tableBytes nbits w).take (s.cfg.memSize - s.pc.toNat)))

end Sys2Proof.Machine
end

