-- ==== Sys2Proof/Machine/Boundary.lean ====
section
/-! DEFINITION. The block boundary (`spec/00_scope.md` R7): beside Reset (`State.resetWith`) and Step (`step`), the
host's Load (`spec/70_reset_and_hazards.md` R183), Run and Observe (`spec/60_exceptions.md` R172, R174). -/

namespace Sys2Proof.Machine

/-- Load of R183: the image's bytes at offsets `0 ..`, nothing else touched; an image longer than memory is refused.
It is meant for the state right after Reset (R175). -/
def load (img : List Byte) (s : State) : Result :=
  if img.length ≤ s.cfg.memSize then .next (s.setMem (s.mem.writeBytes 0 img)) else .refused .imageTooLong

/-- What a `Run` returns to its caller: the machine, and the steps it attempted, which are the caller's count and no
machine state (R22, R172). -/
structure RunResult where
  state : State
  steps : Nat
  deriving DecidableEq, Repr

/-- The loop of R172, `n` steps already counted: a step is counted when it is attempted while Running. -/
def runFrom : Nat → Nat → State → Host.Outcome RunResult Fault Refusal
  | 0, n, s => .next ⟨s, n⟩
  | budget + 1, n, s =>
    if s.status = .running then
      match step s with
      | .next t => runFrom budget (n + 1) t
      | .fault r => .fault r
      | .refused r => .refused r
    else .next ⟨s, n⟩

/-- `Run(budget)` (R172). -/
def run (budget : Nat) (s : State) : Host.Outcome RunResult Fault Refusal := runFrom budget 0 s

/-- "Ran out of budget" as against "reached a terminal state" (R172, R176): the budget sets no status. -/
def RunResult.outOfBudget (r : RunResult) : Bool := r.state.status == .running

/-- What the host reads between steps (R174): registers, `pc`, flags, `status`, and the `N` bytes of memory. -/
structure Observation where
  regs   : List Word
  pc     : Word
  flags  : Flags
  status : Status
  mem    : List Byte
  deriving DecidableEq, Repr

/-- Observe (R174): reading changes nothing. -/
def observe (s : State) : Observation where
  regs   := Reg.all.map s.reg
  pc     := s.pc
  flags  := s.flags
  status := s.status
  mem    := s.mem.readBytes 0 s.cfg.memSize

end Sys2Proof.Machine
end

