-- ==== Sys2Proof/Safety.lean ====
section
/-! DEFINITION. The terms claims use: the invariant of the machine, what a safe run is, the frame relations, and the
data access an instruction makes. -/

namespace Sys2Proof.Machine

/-- The machine's invariant: the parameters are in the range of R4; memory is in canonical form and lists no offset
outside `0 .. N-1` (R39); and the zero flag is never set together with the sign flag (R99, R126). -/
abbrev State.Inv (s : State) : Prop :=
  s.cfg.Ok ∧ s.mem.wf = true ∧ s.mem.below s.cfg.memSize = true ∧ ¬ (s.flags.ZF = true ∧ s.flags.SF = true)

/-- The machine has not ended its run with an error: it runs, or it has halted (R163). -/
def State.safe (s : State) : Prop := s.status = .running ∨ s.status = .halted

/-- A run of the given budget is safe: it answers, and its final state is safe. -/
def SafeRun (budget : Nat) (s : State) : Prop := ∃ r, run budget s = .next r ∧ r.state.safe

/-- Every byte of memory reads the same. -/
def SameMem (s t : State) : Prop := ∀ n : Nat, t.mem.read n = s.mem.read n

/-- Every byte of memory outside the eight bytes from `addr` on reads the same. -/
def SameMemOutside (addr : Word) (s t : State) : Prop :=
  ∀ n : Nat, n < addr.toNat ∨ addr.toNat + 8 ≤ n → t.mem.read n = s.mem.read n

/-- The eight bytes from `addr` on hold `v`, little-endian (R31). -/
def HoldsWord (t : State) (addr v : Word) : Prop :=
  ∀ i : Nat, i < 8 → t.mem.read (addr.toNat + i) = v.extractLsb' (8 * i) 8

/-- Every register outside the list reads the same. -/
def SameRegsBut (rs : List Reg) (s t : State) : Prop := ∀ r : Reg, r ∉ rs → t.reg r = s.reg r

/-- Registers outside the list, flags, status and parameters keep their values: the frame of an instruction that
writes no flag. -/
def KeepsRest (rs : List Reg) (s t : State) : Prop :=
  SameRegsBut rs s t ∧ t.flags = s.flags ∧ t.status = s.status ∧ t.cfg = s.cfg

/-- The one data access an instruction makes, if any: its address and whether it stores (R37, R161). An instruction
whose required register is missing makes none. -/
def dataAccess (i : Instr) (s : State) : Option (Word × Bool) :=
  match i with
  | .rmmovq (some _) (some b) d => some (effAddr s b d, true)
  | .rmmovq none _ _ | .rmmovq (some _) none _ => none
  | .mrmovq (some _) (some b) d => some (effAddr s b d, false)
  | .mrmovq none _ _ | .mrmovq (some _) none _ => none
  | .call _ => some (pushAddr s, true)
  | .pushq (some _) _ => some (pushAddr s, true)
  | .pushq none _ => none
  | .ret => some (popAddr s, false)
  | .popq (some _) _ => some (popAddr s, false)
  | .popq none _ => none
  | .halt | .nop
  | .rrmovq _ _ | .cmovle _ _ | .cmovl _ _ | .cmove _ _ | .cmovne _ _ | .cmovge _ _ | .cmovg _ _ | .irmovq _ _ _
  | .addq _ _ | .subq _ _ | .andq _ _ | .xorq _ _
  | .jmp _ | .jle _ | .jl _ | .je _ | .jne _ | .jge _ | .jg _ => none

/-- The registers an instruction may write, the column "writes" of R13's table. -/
def writes : Instr → List Reg
  | .halt | .nop | .jmp _ | .jle _ | .jl _ | .je _ | .jne _ | .jge _ | .jg _ | .rmmovq _ _ _ => []
  | .rrmovq _ rB | .cmovle _ rB | .cmovl _ rB | .cmove _ rB | .cmovne _ rB | .cmovge _ rB | .cmovg _ rB
  | .irmovq _ rB _ | .addq _ rB | .subq _ rB | .andq _ rB | .xorq _ rB => rB.toList
  | .mrmovq rA _ _ => rA.toList
  | .call _ | .ret | .pushq _ _ => [.rsp]
  | .popq rA _ => .rsp :: rA.toList

/-- A register move under a condition on the flags before the step: the effect of opcode 2, with its frame. -/
def MovesIf (mk : RegSpec → RegSpec → Instr) (p : Flags → Prop) : Prop :=
  ∀ (a b : Reg) (s : State), ∃ t, exec (mk (some a) (some b)) s = .next t ∧
    (p s.flags → t.reg b = s.reg a) ∧ (¬ p s.flags → t.reg b = s.reg b) ∧
    t.pc = s.pc + 2 ∧ KeepsRest [b] s t ∧ SameMem s t

/-- A jump under a condition on the flags before the step: its encoding (byte 0, then the target's eight bytes), its
effect and its frame. -/
def JumpsIf (b0 : Byte) (mk : Word → Instr) (p : Flags → Prop) : Prop :=
  (∀ (dest : Word) (rest : List Byte), decode (b0 :: (wordBytes dest ++ rest)) = .ok (mk dest) rest) ∧
  ∀ (dest : Word) (s : State), ∃ t, exec (mk dest) s = .next t ∧
    (p s.flags → t.pc = dest) ∧ (¬ p s.flags → t.pc = s.pc + 9) ∧ KeepsRest [] s t ∧ SameMem s t

/-- The seven jumps with their rows of the condition table (R140 to R147). -/
def jumpRows : List (CondFn × (Word → Instr)) :=
  [(.always, .jmp), (.le, .jle), (.l, .jl), (.e, .je), (.ne, .jne), (.ge, .jge), (.g, .jg)]

/-- The seven register moves of opcode 2 with their rows of the condition table (R91 to R97). -/
def moveRows : List (CondFn × (RegSpec → RegSpec → Instr)) :=
  [(.always, .rrmovq), (.le, .cmovle), (.l, .cmovl), (.e, .cmove), (.ne, .cmovne), (.ge, .cmovge), (.g, .cmovg)]

/-- The instruction transfers control to `dest`, still Running, and the next step raises InvalidAddress with `pc` at
`dest` and everything else as the transfer left it (D27). -/
def TransfersThenFaults (i : Instr) (dest : Word) (s t : State) : Prop :=
  exec i s = .next t ∧ t.pc = dest ∧ t.status = .running ∧ step t = .next (t.setStatus .invalidAddress)

/-- An instruction of opcode 6: the result `r` of R120's table and its overflow value from the source `x[rA]` and the
destination `x[rB]`, in this order; the flags of R126; and the frame. -/
def ComputesInto (mk : RegSpec → RegSpec → Instr) (r : Word → Word → Word) (overflow : Word → Word → Bool) : Prop :=
  ∀ (a b : Reg) (s : State), ∃ t, exec (mk (some a) (some b)) s = .next t ∧
    t.reg b = r (s.reg a) (s.reg b) ∧
    t.flags.OF = overflow (s.reg a) (s.reg b) ∧
    (t.flags.SF = true ↔ toSigned64 (t.reg b) < 0) ∧
    (t.flags.ZF = true ↔ t.reg b = 0) ∧
    t.pc = s.pc + 2 ∧ SameRegsBut [b] s t ∧ t.status = s.status ∧ t.cfg = s.cfg ∧ SameMem s t

end Sys2Proof.Machine
end

