-- ==== Sys2Proof/Certificates/Slice0/Obligations.lean ====
section
/-! DEFINITION. The statements for the provers. Each docstring names what of `spec/` it formalises; "the spec's own
choice" marks a clause that rests on a decision D<n> of `spec/92_eei_decisions.md`, not on the source's words. -/

open Sys2Proof Sys2Proof.Machine

/-! ## Reset and the invariant -/

/-- R24: after Reset every register, `pc`, every flag and every byte of memory is zero and the status is Running, for
every choice of the parameters; stepped with no image loaded, the machine halts at once. -/
def Obligations.ResetIsAllZeroAndRunning : Prop :=
  ∀ c : Config,
    (∀ r : Reg, (State.resetWith c).reg r = 0) ∧ (State.resetWith c).pc = 0 ∧
    (State.resetWith c).flags.OF = false ∧ (State.resetWith c).flags.SF = false ∧
    (State.resetWith c).flags.ZF = false ∧ (State.resetWith c).status = .running ∧
    (∀ n : Nat, (State.resetWith c).mem.read n = 0) ∧
    (c.Ok → step (State.resetWith c) = .next ((State.resetWith c).setStatus .halted))

/-- The state after Reset meets the invariant, for every choice of the parameters in the range of R4. -/
def Obligations.ResetMeetsTheInvariant : Prop :=
  (∀ c : Config, c.Ok → (State.resetWith c).Inv) ∧ State.reset.Inv

/-- From every state that meets the invariant a step leads to one that does: the parameters stay in range, memory stays
canonical and inside `0 .. N-1` (R39), and the zero flag is never set with the sign flag (R99, R126). -/
def Obligations.StepKeepsTheInvariant : Prop :=
  ∀ s t : State, s.Inv → step s = .next t → t.Inv

/-- A run of any budget, from any state that meets the invariant, ends in one that does. -/
def Obligations.RunKeepsTheInvariant : Prop :=
  ∀ (budget : Nat) (s : State) (r : RunResult), s.Inv → run budget s = .next r → r.state.Inv

/-! ## Encoding -/

/-- Decoding the encoding of an instruction gives it back, whatever bytes follow: every instruction, every register
specifier (0xF and the ignored nibbles included), every constant. -/
def Obligations.DecodeOfEncodeIsTheInstruction : Prop :=
  ∀ (i : Instr) (rest : List Byte), decode (encode i ++ rest) = .ok i rest

/-- The other direction: bytes that decode are the encoding of what they decode to, so no two encodings mean one
instruction and no bit is dropped. -/
def Obligations.DecodedBytesAreTheEncoding : Prop :=
  ∀ (bs rest : List Byte) (i : Instr), decode bs = .ok i rest → bs = encode i ++ rest

/-- The decoder rejects byte 0 exactly where `ValidOp` of R57 is false (the spec's own choice D5 for function codes 1 to
15 of the single-member families, decided as R57 does), and needs exactly the length R55 gives the opcode. -/
def Obligations.DecoderAcceptsExactlyValidOpcodes : Prop :=
  ∀ (b : Byte) (rest : List Byte),
    (decode (b :: rest) = .rejected .invalidOp ↔ validOp (hiNibble b) (loNibble b) = false) ∧
    ∀ f : Format, validOp (hiNibble b) (loNibble b) = true → formatOf (hiNibble b) = some f →
      ((∃ i rest', decode (b :: rest) = .ok i rest' ∧ rest'.length + f.length = rest.length + 1) ↔
        f.length ≤ rest.length + 1)

/-- Words written out from the fields of R51 to R58 decode to the instruction they stand for: one of each family. The
place of the target of `jne` and `call` is the spec's own choice D6, the length of `pushq` and `popq` D7, function code
0 of the single-member families D5. -/
def Obligations.WordsOfTheSpecDecode : Prop :=
  decode [0x00] = .ok .halt [] ∧
  decode [0x10] = .ok .nop [] ∧
  decode [0x20, 0x30] = .ok (.rrmovq (some .rbx) (some .rax)) [] ∧
  decode [0x22, 0x12] = .ok (.cmovl (some .rcx) (some .rdx)) [] ∧
  decode [0x30, 0xF0, 0x05, 0, 0, 0, 0, 0, 0, 0] = .ok (.irmovq none (some .rax) 5) [] ∧
  decode [0x40, 0x03, 0x08, 0, 0, 0, 0, 0, 0, 0] = .ok (.rmmovq (some .rax) (some .rbx) 8) [] ∧
  decode [0x50, 0x13, 0xF8, 0xFF, 0xFF, 0xFF, 0xFF, 0xFF, 0xFF, 0xFF] =
    .ok (.mrmovq (some .rcx) (some .rbx) (-8)) [] ∧
  decode [0x61, 0x30] = .ok (.subq (some .rbx) (some .rax)) [] ∧
  decode [0x74, 0x16, 0, 0, 0, 0, 0, 0, 0] = .ok (.jne 0x16) [] ∧
  decode [0x80, 0x20, 0, 0, 0, 0, 0, 0, 0] = .ok (.call 0x20) [] ∧
  decode [0x90] = .ok .ret [] ∧
  decode [0xA0, 0x7F] = .ok (.pushq (some .rdi) none) [] ∧
  decode [0xB0, 0x6F] = .ok (.popq (some .rsi) none) []

/-! ## The step -/

/-- A running machine whose bytes at `pc`, all of them inside memory, decode to an instruction executes it: `step` adds
nothing around `exec`, which is the model's own split of the two (log entry 13). That the instruction's own bytes are
enough, with fewer than ten bytes of memory left too, is the spec's own choice D10 (log entry 6). -/
def Obligations.StepRunsTheDecodedInstruction : Prop :=
  ∀ (s : State) (k : Nat) (i : Instr) (rest : List Byte),
    s.status = .running → s.pc.toNat + k ≤ s.cfg.memSize →
    decode (s.mem.readBytes s.pc.toNat k) = .ok i rest → step s = exec i s

/-- An opcode-table word that the decoder reads as an instruction, placed by `withFetchWord`, is what the next step
executes. -/
def Obligations.PlacedTableWordRuns : Prop :=
  ∀ (s : State) (nbits w : Nat) (i : Instr),
    s.status = .running → s.mem.wf = true → s.pc.toNat + 10 ≤ s.cfg.memSize →
    decodeTableWord nbits w = some i →
    step (s.withFetchWord nbits w) = exec i (s.withFetchWord nbits w)

/-- Every step answers a next state: no fault and no refusal of the model is ever reached, since both errors of the spec
are values of the status, which the model reads as next states (DEDUCED, log entry 20). That a step in a terminal status
answers one too is the spec's own choice D22 (log entry 13), where a model may also be stuck (U19). -/
def Obligations.EveryStepAnswersANextState : Prop :=
  ∀ s : State, ∃ t, step s = .next t

/-- A step in a terminal status changes nothing, and a run from one takes no step (the spec's own choice D22). -/
def Obligations.TerminalStatusIsFinal : Prop :=
  ∀ (s : State) (budget : Nat), s.status ≠ .running →
    step s = .next s ∧ run budget s = .next ⟨s, 0⟩

/-- R160: Reset gives Running; a terminal status stays; a running machine goes to the status of the exception its fetch
raises, to Halted by executing `halt`, and by any other instruction stays Running or goes to the status of the
exception the instruction raises. -/
def Obligations.StatusTransitions : Prop :=
  (∀ c : Config, (State.resetWith c).status = .running) ∧
  ∀ s t : State, step s = .next t →
    (s.status ≠ .running → t.status = s.status) ∧
    (s.status = .running →
      (∀ e : Exc, fetch s = .error e → t.status = e.status) ∧
      (fetch s = .ok .halt → t.status = .halted) ∧
      (∀ i : Instr, fetch s = .ok i → i ≠ .halt →
        t.status = .running ∨ ∃ e : Exc, exec i s = raise e s ∧ t.status = e.status))

/-- A step that ends in InvalidAddress or InvalidInstruction changes the status and nothing else: registers, `pc`,
flags and every byte of memory stay (the spec's own choice D12). -/
def Obligations.FaultingStepChangesOnlyStatus : Prop :=
  ∀ s t : State, s.status = .running → step s = .next t →
    t.status = .invalidAddress ∨ t.status = .invalidInstruction → t = s.setStatus t.status

/-- The complete list of causes of InvalidAddress: a step of a running machine ends in it exactly where byte 0 is out of
bounds, the rest of a recognised instruction longer than one byte is, or the store of `rmmovq`, the load of `mrmovq`,
the push of `pushq` and `call` or the pop of `popq` and `ret` is; every other instruction raises it through its fetch
alone. The fetch bound is the spec's own choice D10, the order of checks D11, the wrapped addresses D13 and D14. -/
def Obligations.CausesOfInvalidAddress : Prop :=
  ∀ (s t : State) (N : Int), N = s.cfg.memSize → s.status = .running → step s = .next t →
    (t.status = .invalidAddress ↔
      (s.pc.toNat : Int) > N - 1 ∨
      ((s.pc.toNat : Int) ≤ N - 1 ∧
        ∃ f : Format, validOp (hiNibble (s.mem.read s.pc.toNat)) (loNibble (s.mem.read s.pc.toNat)) = true ∧
          formatOf (hiNibble (s.mem.read s.pc.toNat)) = some f ∧ f.length ∈ [2, 9, 10] ∧
          (s.pc.toNat : Int) + f.length - 1 > N - 1) ∨
      (∃ a b d, fetch s = .ok (.rmmovq (some a) (some b) d) ∧ ((s.reg b + d).toNat : Int) + 7 > N - 1) ∨
      (∃ a b d, fetch s = .ok (.mrmovq (some a) (some b) d) ∧ ((s.reg b + d).toNat : Int) + 7 > N - 1) ∨
      (∃ a x, fetch s = .ok (.pushq (some a) x) ∧ ((s.reg .rsp - 8).toNat : Int) + 7 > N - 1) ∨
      (∃ d, fetch s = .ok (.call d) ∧ ((s.reg .rsp - 8).toNat : Int) + 7 > N - 1) ∨
      (∃ a x, fetch s = .ok (.popq (some a) x) ∧ ((s.reg .rsp).toNat : Int) + 7 > N - 1) ∨
      (fetch s = .ok .ret ∧ ((s.reg .rsp).toNat : Int) + 7 > N - 1))

/-- The order in which one step's checks decide (the spec's own choice D11, with D5, D9, D10 and D12): byte 0 in
bounds, byte 0 recognised, the rest in bounds, the register specifiers, the data access; past all of them the step
completes. -/
def Obligations.OrderOfChecks : Prop :=
  ∀ s : State, s.status = .running →
    (s.cfg.memSize ≤ s.pc.toNat → step s = .next (s.setStatus .invalidAddress)) ∧
    (s.pc.toNat < s.cfg.memSize →
      (validOp (hiNibble (s.mem.read s.pc.toNat)) (loNibble (s.mem.read s.pc.toNat)) = false →
        step s = .next (s.setStatus .invalidInstruction)) ∧
      ∀ f : Format, validOp (hiNibble (s.mem.read s.pc.toNat)) (loNibble (s.mem.read s.pc.toNat)) = true →
        formatOf (hiNibble (s.mem.read s.pc.toNat)) = some f →
        (s.cfg.memSize < s.pc.toNat + f.length → step s = .next (s.setStatus .invalidAddress)) ∧
        (s.pc.toNat + f.length ≤ s.cfg.memSize →
          ∃ i, decode (s.mem.readBytes s.pc.toNat f.length) = .ok i [] ∧
            (i.wellFormed = false → step s = .next (s.setStatus .invalidInstruction)) ∧
            (i.wellFormed = true →
              (∀ addr st, dataAccess i s = some (addr, st) → s.cfg.memSize < addr.toNat + 8 →
                step s = .next (s.setStatus .invalidAddress)) ∧
              ((∀ addr st, dataAccess i s = some (addr, st) → addr.toNat + 8 ≤ s.cfg.memSize) →
                ∃ t, step s = .next t ∧ (t.status = .running ∨ t.status = .halted)))))

/-- The fetch depends on the instruction's own bytes only: another memory that agrees on them gives the same instruction
(the spec's own choice D10). -/
def Obligations.FetchDependsOnOwnBytesOnly : Prop :=
  ∀ (s s' : State) (i : Instr), fetch s = .ok i → s'.pc = s.pc → s'.cfg = s.cfg →
    (∀ k : Nat, k < i.length → s'.mem.read (s.pc.toNat + k) = s.mem.read (s.pc.toNat + k)) →
    fetch s' = .ok i

/-- The constant the decoder extracts is the word a data read of its eight bytes gives, for all eleven instructions that
carry one. That the target of a jump or call stands in bytes 1 to 8 is the spec's own choice D6 (log entry 9). -/
def Obligations.ConstantReadsAsData : Prop :=
  ∀ s : State, s.cfg.Ok →
    (∀ x b v, fetch s = .ok (.irmovq x b v) → memRead s (s.pc + 2) = .ok v) ∧
    (∀ a b d, fetch s = .ok (.rmmovq a b d) → memRead s (s.pc + 2) = .ok d) ∧
    (∀ a b d, fetch s = .ok (.mrmovq a b d) → memRead s (s.pc + 2) = .ok d) ∧
    (∀ p ∈ jumpRows, ∀ dest, fetch s = .ok (p.2 dest) → memRead s (s.pc + 1) = .ok dest) ∧
    (∀ dest, fetch s = .ok (.call dest) → memRead s (s.pc + 1) = .ok dest)

/-! ## Whole-machine rules -/

/-- A required register specifier that is 0xF raises InvalidInstruction, whatever the flags and operands, for every
instruction that requires one (the spec's own choices D9 and D12). -/
def Obligations.MissingRegisterRaises : Prop :=
  ∀ (i : Instr) (s : State), i.wellFormed = false → exec i s = .next (s.setStatus .invalidInstruction)

/-- A data access out of bounds raises InvalidAddress and nothing else happens: the store, load, push or pop of the six
instructions that make one (the spec's own choice D12). -/
def Obligations.OutOfBoundsAccessRaises : Prop :=
  ∀ (i : Instr) (s : State) (addr : Word) (st : Bool),
    dataAccess i s = some (addr, st) → s.cfg.memSize < addr.toNat + 8 →
    exec i s = .next (s.setStatus .invalidAddress)

/-- Every instruction completes: with its required registers named and its data access, if it makes one, in bounds, it
answers a next state with the status as it was, or Halted for `halt`. -/
def Obligations.EveryInstructionCompletes : Prop :=
  ∀ (i : Instr) (s : State), i.wellFormed = true →
    (∀ addr st, dataAccess i s = some (addr, st) → addr.toNat + 8 ≤ s.cfg.memSize) →
    ∃ t, exec i s = .next t ∧ t.status = if i = .halt then .halted else s.status

/-- R17: exactly `addq`, `subq`, `andq`, `xorq` write flags, all three on every execution that does not fault and
whatever they were. Exactly the conditional jumps and moves read them: any other instruction does the same under other
flags, while a conditional jump whose target is not the next instruction, or a conditional move between registers that
differ, does the same exactly where its row of the condition table has the same value, and every row but "always" takes
both values. -/
def Obligations.FlagWritersAndReaders : Prop :=
  (∀ (i : Instr) (s t : State), i.op ∉ [.addq, .subq, .andq, .xorq] → exec i s = .next t → t.flags = s.flags) ∧
  (∀ (i : Instr) (s : State) (f : Flags), i.op ∈ [.addq, .subq, .andq, .xorq] → i.wellFormed = true →
    exec i (s.setFlags f) = exec i s) ∧
  (∀ (i : Instr) (s t : State) (f : Flags),
    i.op ∉ [.addq, .subq, .andq, .xorq, .cmovle, .cmovl, .cmove, .cmovne, .cmovge, .cmovg,
      .jle, .jl, .je, .jne, .jge, .jg] →
    exec i s = .next t → exec i (s.setFlags f) = .next (t.setFlags f)) ∧
  (∀ p ∈ jumpRows, ∀ (dest : Word) (s t : State) (f : Flags), dest ≠ s.pc + 9 → exec (p.2 dest) s = .next t →
    (exec (p.2 dest) (s.setFlags f) = .next (t.setFlags f) ↔ condHolds p.1 f = condHolds p.1 s.flags)) ∧
  (∀ p ∈ moveRows, ∀ (a b : Reg) (s t : State) (f : Flags), s.reg a ≠ s.reg b →
    exec (p.2 (some a) (some b)) s = .next t →
    (exec (p.2 (some a) (some b)) (s.setFlags f) = .next (t.setFlags f) ↔ condHolds p.1 f = condHolds p.1 s.flags)) ∧
  (∀ c : CondFn, c ≠ .always → (∃ f, condHolds c f = true) ∧ ∃ f, condHolds c f = false)

/-- An instruction writes no register outside the column "writes" of the table of `spec/10_state.md` section 1. -/
def Obligations.RegisterWriters : Prop :=
  ∀ (i : Instr) (s t : State), exec i s = .next t → SameRegsBut (writes i) s t

/-- Memory changes only in the eight bytes that `rmmovq`, `pushq` or `call` stores to; every other instruction, a load
included, leaves every byte as it was. -/
def Obligations.MemoryWriters : Prop :=
  ∀ (i : Instr) (s t : State), s.mem.wf = true → exec i s = .next t →
    (∀ addr, dataAccess i s = some (addr, true) → SameMemOutside addr s t) ∧
    ((∀ addr, dataAccess i s ≠ some (addr, true)) → SameMem s t)

/-- The next `pc` of every instruction executed by a running machine: unchanged by `halt` and by a fault, the target of
a taken jump or a call, the word at the top of the stack for `ret`, else the address of the next instruction (targets
unchecked by the spec's own choice D27, the faulting `pc` by D12). -/
def Obligations.NextProgramCounter : Prop :=
  ∀ (i : Instr) (s t : State), s.status = .running → exec i s = .next t →
    (t.status ≠ .running → t.pc = s.pc) ∧
    (t.status = .running → t.pc =
      match i with
      | .jmp dest => dest
      | .jle dest => if s.flags.ZF || (s.flags.SF != s.flags.OF) then dest else s.pc + 9
      | .jl dest => if s.flags.SF != s.flags.OF then dest else s.pc + 9
      | .je dest => if s.flags.ZF then dest else s.pc + 9
      | .jne dest => if !s.flags.ZF then dest else s.pc + 9
      | .jge dest => if s.flags.ZF || (s.flags.SF == s.flags.OF) then dest else s.pc + 9
      | .jg dest => if !s.flags.ZF && (s.flags.SF == s.flags.OF) then dest else s.pc + 9
      | .call dest => dest
      | .ret => s.mem.readWord (s.reg .rsp).toNat
      | _ => s.pc + BitVec.ofNat 64 (encode i).length)

/-- No step changes the machine's parameters, which the model keeps in its own field `cfg` of State (DESIGN CHOICE, log
entry 1). -/
def Obligations.ParametersNeverChange : Prop :=
  ∀ s t : State, step s = .next t → t.cfg = s.cfg

/-- The two open readings of R4 matter to `pushq %rsp` and `popq %rsp` alone: any other instruction does the same under
any other setting of them. -/
def Obligations.OpenReadingsMatterToRspAlone : Prop :=
  ∀ (i : Instr) (s t : State) (c : Config), c.memSize = s.cfg.memSize →
    (∀ x, i ≠ .pushq (some .rsp) x) → (∀ x, i ≠ .popq (some .rsp) x) →
    exec i s = .next t → exec i { s with cfg := c } = .next { t with cfg := c }

/-! ## `halt`, `nop` and the moves -/

/-- `halt` sets the status to Halted and nothing else; `pc` stays at the halt byte. -/
def Obligations.HaltStopsInPlace : Prop :=
  ∀ s : State, ∃ t, exec .halt s = .next t ∧ t.status = .halted ∧ t.pc = s.pc ∧
    SameRegsBut [] s t ∧ t.flags = s.flags ∧ t.cfg = s.cfg ∧ SameMem s t

/-- R83: `nop` is the one byte 0x10, and only advances `pc` by 1; it raises nothing of its own. -/
def Obligations.NopOnlyAdvances : Prop :=
  (∀ rest : List Byte, decode (0x10 :: rest) = .ok .nop rest) ∧
  ∀ s : State, ∃ t, exec .nop s = .next t ∧ t.pc = s.pc + 1 ∧ KeepsRest [] s t ∧ SameMem s t

/-- `rrmovq` copies `x[rA]` to `x[rB]` whatever the flags; the six conditional moves copy where their row of the
condition table holds and else only advance. -/
def Obligations.RegisterMovesFollowTheConditionTable : Prop :=
  MovesIf .rrmovq (fun _ => True) ∧
  MovesIf .cmovle (fun f => f.ZF = true ∨ f.SF ≠ f.OF) ∧
  MovesIf .cmovl (fun f => f.SF ≠ f.OF) ∧
  MovesIf .cmove (fun f => f.ZF = true) ∧
  MovesIf .cmovne (fun f => f.ZF = false) ∧
  MovesIf .cmovge (fun f => f.ZF = true ∨ f.SF = f.OF) ∧
  MovesIf .cmovg (fun f => f.ZF = false ∧ f.SF = f.OF)

/-- `irmovq` loads all 64 bits of the constant, whatever its ignored nibble (the spec's own choice D8). -/
def Obligations.IrmovqLoadsTheConstant : Prop :=
  ∀ (x : RegSpec) (b : Reg) (v : Word) (s : State), ∃ t, exec (.irmovq x (some b) v) s = .next t ∧
    t.reg b = v ∧ t.pc = s.pc + 10 ∧ KeepsRest [b] s t ∧ SameMem s t

/-! ## Memory moves -/

/-- `rmmovq` stores `x[rA]` little-endian at `EA = (x[rB] + D) mod 2^64` (the wrap is the spec's own choice D13) where
`EA <= N - 8`, and changes no other byte and no register. -/
def Obligations.RmmovqStoresTheRegister : Prop :=
  ∀ (a b : Reg) (d : Word) (s : State), s.mem.wf = true → (effAddr s b d).toNat + 8 ≤ s.cfg.memSize →
    ∃ t, exec (.rmmovq (some a) (some b) d) s = .next t ∧
      (effAddr s b d).toNat = ((s.reg b).toNat + d.toNat) % 2 ^ 64 ∧
      HoldsWord t (effAddr s b d) (s.reg a) ∧ t.pc = s.pc + 10 ∧
      KeepsRest [] s t ∧ SameMemOutside (effAddr s b d) s t

/-- `mrmovq` loads the little-endian word at `EA` into `x[rA]` where `EA <= N - 8`; the address is formed from the old
registers, also when `rA` is the base. -/
def Obligations.MrmovqLoadsTheWord : Prop :=
  ∀ (a b : Reg) (d : Word) (s : State), (effAddr s b d).toNat + 8 ≤ s.cfg.memSize →
    ∃ t, exec (.mrmovq (some a) (some b) d) s = .next t ∧
      (effAddr s b d).toNat = ((s.reg b).toNat + d.toNat) % 2 ^ 64 ∧
      HoldsWord s (effAddr s b d) (t.reg a) ∧ t.pc = s.pc + 10 ∧
      KeepsRest [a] s t ∧ SameMem s t

/-- R33: `MemRead` fails with InvalidAddress exactly where `addr + 7` exceeds the last offset, compared without wrap,
and else answers the little-endian combination of the eight bytes; it changes nothing, having no state to answer. -/
def Obligations.MemReadIsLittleEndian : Prop :=
  ∀ (s : State) (addr : Word),
    (s.cfg.memSize < addr.toNat + 8 → memRead s addr = .error .invalidAddress) ∧
    (addr.toNat + 8 ≤ s.cfg.memSize → ∃ v, memRead s addr = .ok v ∧
      v.toNat = (s.mem.read addr.toNat).toNat + (s.mem.read (addr.toNat + 1)).toNat * 2 ^ 8 +
        (s.mem.read (addr.toNat + 2)).toNat * 2 ^ 16 + (s.mem.read (addr.toNat + 3)).toNat * 2 ^ 24 +
        (s.mem.read (addr.toNat + 4)).toNat * 2 ^ 32 + (s.mem.read (addr.toNat + 5)).toNat * 2 ^ 40 +
        (s.mem.read (addr.toNat + 6)).toNat * 2 ^ 48 + (s.mem.read (addr.toNat + 7)).toNat * 2 ^ 56)

/-- R34: `MemWrite` fails the same bound check and then writes no byte, or stores bit `8i+7 .. 8i` of the word at
`addr + i` for the eight `i`; no other byte and nothing else changes. -/
def Obligations.MemWriteIsLittleEndian : Prop :=
  ∀ (s : State) (addr v : Word), s.mem.wf = true →
    (s.cfg.memSize < addr.toNat + 8 → memWrite s addr v = .error .invalidAddress) ∧
    (addr.toNat + 8 ≤ s.cfg.memSize → ∃ t, memWrite s addr v = .ok t ∧
      HoldsWord t addr v ∧ SameMemOutside addr s t ∧ KeepsRest [] s t ∧ t.pc = s.pc)

/-- What a word read sees after a store: at the same address the stored word; `k` bytes higher, the upper `8 - k` bytes
of it in the low positions, then the `k` bytes that were behind it. -/
def Obligations.OverlappingReadSeesTheStore : Prop :=
  ∀ (s t : State) (addr v : Word) (k : Nat), s.Inv → k < 8 → memWrite s addr v = .ok t →
    addr.toNat + k + 8 ≤ s.cfg.memSize →
    ∃ w, memRead t (addr + BitVec.ofNat 64 k) = .ok w ∧
      (∀ i : Nat, i < 8 - k → w.extractLsb' (8 * i) 8 = v.extractLsb' (8 * (i + k)) 8) ∧
      (∀ i : Nat, i < k → w.extractLsb' (8 * (8 - k + i)) 8 = s.mem.read (addr.toNat + 8 + i))

/-- A store is seen by the very next fetch: where `rmmovq` stores over the bytes of the next instruction, the next step
executes the stored bytes (the spec's own choice D20). -/
def Obligations.StoredBytesAreFetched : Prop :=
  ∀ (a b : Reg) (d : Word) (s : State) (j : Instr) (rest : List Byte),
    s.status = .running → s.mem.wf = true → effAddr s b d = s.pc + 10 →
    (effAddr s b d).toNat + 8 ≤ s.cfg.memSize → decode (wordBytes (s.reg a)) = .ok j rest →
    ∃ t, exec (.rmmovq (some a) (some b) d) s = .next t ∧ step t = exec j t

/-! ## The ALU -/

/-- Result, flags and frame of the four instructions of opcode 6, the destination the left operand; the flags before are
no input. That `andq` and `xorq` clear `OF` is the spec's own choice D15, and `subOverflowing` for the subtrahend `2^63`
D16. -/
def Obligations.AluFollowsTheTable : Prop :=
  ComputesInto .addq (fun a b => (addOverflowing b a).1) (fun a b => (addOverflowing b a).2) ∧
  ComputesInto .subq (fun a b => (subOverflowing b a).1) (fun a b => (subOverflowing b a).2) ∧
  ComputesInto .andq (fun a b => b &&& a) (fun _ _ => false) ∧
  ComputesInto .xorq (fun a b => b ^^^ a) (fun _ _ => false) ∧
  (∀ p q : Word, (addOverflowing p q).1.toNat = (p.toNat + q.toNat) % 2 ^ 64) ∧
  (∀ p q : Word, (subOverflowing p q).1.toNat = (p.toNat + 2 ^ 64 - q.toNat) % 2 ^ 64)

/-- R122: the sum wraps modulo `2^64`; overflow is set exactly when both operands have one sign and the result the
other, which is true signed overflow. -/
def Obligations.AddOverflowIsSignedOverflow : Prop :=
  ∀ p q : Word,
    (addOverflowing p q).1.toNat = (p.toNat + q.toNat) % 2 ^ 64 ∧
    ((addOverflowing p q).2 = true ↔
      p.getLsbD 63 = q.getLsbD 63 ∧ (addOverflowing p q).1.getLsbD 63 ≠ p.getLsbD 63) ∧
    ((addOverflowing p q).2 = true ↔
      toSigned64 p + toSigned64 q < -(2 ^ 63) ∨ 2 ^ 63 ≤ toSigned64 p + toSigned64 q)

/-- Subtraction: the result is `(p - q) mod 2^64`; overflow is true signed overflow for every subtrahend but `2^63`, for
which it is the sign of `p`, the opposite (conflict C5, the spec's own choice D16). -/
def Obligations.SubOverflowAndItsCorner : Prop :=
  ∀ p q : Word,
    (subOverflowing p q).1 = p - q ∧
    (q.toNat ≠ 2 ^ 63 → ((subOverflowing p q).2 = true ↔
      toSigned64 p - toSigned64 q < -(2 ^ 63) ∨ 2 ^ 63 ≤ toSigned64 p - toSigned64 q)) ∧
    (q.toNat = 2 ^ 63 → ((subOverflowing p q).2 = true ↔ toSigned64 p < 0) ∧
      ((subOverflowing p q).2 = true ↔
        ¬ (toSigned64 p - toSigned64 q < -(2 ^ 63) ∨ 2 ^ 63 ≤ toSigned64 p - toSigned64 q)))

/-- R124: the conversions between the unsigned storage form and the signed value, and that each undoes the other. -/
def Obligations.SignedConversionsAreInverse : Prop :=
  (∀ u : Word, (u.toNat < 2 ^ 63 → toSigned64 u = u.toNat) ∧
    (2 ^ 63 ≤ u.toNat → toSigned64 u = (u.toNat : Int) - 2 ^ 64)) ∧
  (∀ x : Int, -(2 ^ 63) ≤ x → x < 2 ^ 63 →
    (0 ≤ x → ((toUnsigned64 x).toNat : Int) = x) ∧
    (x < 0 → ((toUnsigned64 x).toNat : Int) = x + 2 ^ 64) ∧
    toSigned64 (toUnsigned64 x) = x) ∧
  (∀ u : Word, toUnsigned64 (toSigned64 u) = u)

/-- The value part of the round-trip law of add and sub. -/
def Obligations.AddThenSubGivesTheOperandBack : Prop :=
  ∀ p q : Word, (subOverflowing (addOverflowing p q).1 q).1 = p

/-- After `subq rA, rB` the condition table reads as the signed comparison of the old `x[rB]` with `x[rA]`, for every
subtrahend but `2^63`. -/
def Obligations.ConditionsAfterSubqCompareSigned : Prop :=
  ∀ (a b : Reg) (s t : State), exec (.subq (some a) (some b)) s = .next t → (s.reg a).toNat ≠ 2 ^ 63 →
    (condHolds .le t.flags = true ↔ toSigned64 (s.reg b) ≤ toSigned64 (s.reg a)) ∧
    (condHolds .l t.flags = true ↔ toSigned64 (s.reg b) < toSigned64 (s.reg a)) ∧
    (condHolds .e t.flags = true ↔ s.reg b = s.reg a) ∧
    (condHolds .ne t.flags = true ↔ s.reg b ≠ s.reg a) ∧
    (condHolds .ge t.flags = true ↔ toSigned64 (s.reg a) ≤ toSigned64 (s.reg b)) ∧
    (condHolds .g t.flags = true ↔ toSigned64 (s.reg a) < toSigned64 (s.reg b))

/-- After `subq` with the subtrahend `2^63` the signed readings fail: `l` holds always, and unless `x[rB]` is `2^63`
too, `le` holds and `ge`, `g` do not (rests on the spec's own choice D16). -/
def Obligations.ConditionsAfterSubqOfTheMinimum : Prop :=
  ∀ (a b : Reg) (s t : State), exec (.subq (some a) (some b)) s = .next t → (s.reg a).toNat = 2 ^ 63 →
    condHolds .l t.flags = true ∧
    ((s.reg b).toNat ≠ 2 ^ 63 →
      condHolds .le t.flags = true ∧ condHolds .ge t.flags = false ∧ condHolds .g t.flags = false) ∧
    ((s.reg b).toNat = 2 ^ 63 →
      condHolds .e t.flags = true ∧ condHolds .le t.flags = true ∧ condHolds .ge t.flags = true ∧
      condHolds .g t.flags = false ∧ condHolds .ne t.flags = false)

/-! ## Jumps -/

/-- R141 to R147: the seven jumps, byte 0 and the eight little-endian bytes of the absolute target (its place is the
spec's own choice D6); `pc` becomes the target, unchecked (D27), where the row of the condition table holds and `pc + 9`
elsewhere; nothing else changes and nothing is raised. -/
def Obligations.JumpsFollowTheConditionTable : Prop :=
  JumpsIf 0x70 .jmp (fun _ => True) ∧
  JumpsIf 0x71 .jle (fun f => f.ZF = true ∨ f.SF ≠ f.OF) ∧
  JumpsIf 0x72 .jl (fun f => f.SF ≠ f.OF) ∧
  JumpsIf 0x73 .je (fun f => f.ZF = true) ∧
  JumpsIf 0x74 .jne (fun f => f.ZF = false) ∧
  JumpsIf 0x75 .jge (fun f => f.ZF = true ∨ f.SF = f.OF) ∧
  JumpsIf 0x76 .jg (fun f => f.ZF = false ∧ f.SF = f.OF)

/-- A target outside memory is written to `pc` unchecked by every control transfer, and the next step raises
InvalidAddress with `pc` still at the bad target (the spec's own choice D27): a jump whose condition holds, a `call`,
whose return address is pushed first, and a `ret`, whose `%rsp` is incremented first, both with their stack access in
bounds. -/
def Obligations.TargetOutsideMemoryFaultsNextStep : Prop :=
  ∀ (dest : Word) (s : State), s.status = .running → s.cfg.memSize ≤ dest.toNat →
    (∀ p ∈ jumpRows, condHolds p.1 s.flags = true → ∃ t, TransfersThenFaults (p.2 dest) dest s t) ∧
    (s.mem.wf = true → (pushAddr s).toNat + 8 ≤ s.cfg.memSize →
      ∃ t, TransfersThenFaults (.call dest) dest s t ∧ HoldsWord t (pushAddr s) (s.pc + 9) ∧
        t.reg .rsp = s.reg .rsp - 8) ∧
    ((popAddr s).toNat + 8 ≤ s.cfg.memSize → HoldsWord s (popAddr s) dest →
      ∃ t, TransfersThenFaults .ret dest s t ∧ t.reg .rsp = s.reg .rsp + 8)

/-! ## The stack -/

/-- `call` pushes the address after its nine bytes, little-endian at `(x[4] - 8) mod 2^64`, decrements `x[4]` and jumps,
where the push is in bounds; the target is not checked (the spec's own choice D27). -/
def Obligations.CallPushesTheReturnAddress : Prop :=
  ∀ (dest : Word) (s : State), s.mem.wf = true → (pushAddr s).toNat + 8 ≤ s.cfg.memSize →
    ∃ t, exec (.call dest) s = .next t ∧ pushAddr s = s.reg .rsp - 8 ∧
      HoldsWord t (pushAddr s) (s.pc + 9) ∧ t.reg .rsp = s.reg .rsp - 8 ∧ t.pc = dest ∧
      KeepsRest [.rsp] s t ∧ SameMemOutside (pushAddr s) s t

/-- `ret` makes the word at `x[4]` the new `pc`, with nothing added, and increments `x[4]` by 8, where the pop is in
bounds; memory is not written. -/
def Obligations.RetPopsTheProgramCounter : Prop :=
  ∀ s : State, (s.reg .rsp).toNat + 8 ≤ s.cfg.memSize →
    ∃ t, exec .ret s = .next t ∧ HoldsWord s (s.reg .rsp) t.pc ∧ t.reg .rsp = s.reg .rsp + 8 ∧
      KeepsRest [.rsp] s t ∧ SameMem s t

/-- `pushq` stores the old value of `x[rA]` at `(x[4] - 8) mod 2^64` and decrements `x[4]`, where the push is in bounds;
for `%rsp` the parameter decides between the old and the decremented pointer (the spec's own choice D17, both values
covered). The ignored nibble does not matter (D8). -/
def Obligations.PushqStoresTheRegister : Prop :=
  ∀ (a : Reg) (x : RegSpec) (s : State), s.mem.wf = true → (pushAddr s).toNat + 8 ≤ s.cfg.memSize →
    ∃ t, exec (.pushq (some a) x) s = .next t ∧ pushAddr s = s.reg .rsp - 8 ∧
      (a ≠ .rsp ∨ s.cfg.pushqSp = .old → HoldsWord t (pushAddr s) (s.reg a)) ∧
      (a = .rsp ∧ s.cfg.pushqSp = .new → HoldsWord t (pushAddr s) (s.reg .rsp - 8)) ∧
      t.reg .rsp = s.reg .rsp - 8 ∧ t.pc = s.pc + 2 ∧
      KeepsRest [.rsp] s t ∧ SameMemOutside (pushAddr s) s t

/-- `popq` loads the word at `x[4]` into `x[rA]` and increments `x[4]` by 8, where the pop is in bounds; for `%rsp` the
parameter decides (the spec's own choice D18, all three values covered). Memory is not written, and the ignored nibble
does not matter (D8). -/
def Obligations.PopqLoadsTheRegister : Prop :=
  ∀ (a : Reg) (x : RegSpec) (s : State), (s.reg .rsp).toNat + 8 ≤ s.cfg.memSize →
    ∃ t v, exec (.popq (some a) x) s = .next t ∧ HoldsWord s (s.reg .rsp) v ∧
      (a ≠ .rsp → t.reg a = v ∧ t.reg .rsp = s.reg .rsp + 8) ∧
      (a = .rsp → t.reg .rsp =
        match s.cfg.popqSp with
        | .loaded => v
        | .loadedPlus8 => v + 8
        | .oldPlus8 => s.reg .rsp + 8) ∧
      t.pc = s.pc + 2 ∧ KeepsRest [.rsp, a] s t ∧ SameMem s t

/-- A `ret` that finds the stack pointer and the pushed word as a `call` left them returns to the instruction following
the `call`, with the stack pointer restored. -/
def Obligations.RetUndoesCall : Prop :=
  ∀ (dest : Word) (s t u : State), s.Inv → (pushAddr s).toNat + 8 ≤ s.cfg.memSize →
    exec (.call dest) s = .next t → u.cfg = t.cfg → u.reg .rsp = t.reg .rsp →
    (∀ i : Nat, i < 8 → u.mem.read ((t.reg .rsp).toNat + i) = t.mem.read ((t.reg .rsp).toNat + i)) →
    ∃ v, exec .ret u = .next v ∧ v.pc = s.pc + 9 ∧ v.reg .rsp = s.reg .rsp

/-- `pushq` of one register and then `popq` into another moves the value and restores the stack pointer. -/
def Obligations.PopqUndoesPushq : Prop :=
  ∀ (a b : Reg) (x y : RegSpec) (s t : State), s.Inv → a ≠ .rsp → b ≠ .rsp →
    (pushAddr s).toNat + 8 ≤ s.cfg.memSize → exec (.pushq (some a) x) s = .next t →
    ∃ v, exec (.popq (some b) y) t = .next v ∧ v.reg b = s.reg a ∧ v.reg .rsp = s.reg .rsp ∧
      ∀ r : Reg, r ≠ b → v.reg r = s.reg r

/-! ## The host's operations -/

/-- Load after Reset places the image's bytes at offsets `0 ..`, leaves every later byte 0x00 and everything else as
Reset left it, and keeps the invariant; an image longer than memory is refused (the spec's own choice D24). -/
def Obligations.LoadPlacesTheImage : Prop :=
  ∀ (c : Config) (img : List Byte), c.Ok →
    (img.length ≤ c.memSize → ∃ t, load img (State.resetWith c) = .next t ∧
      (∀ n : Nat, t.mem.read n = img.getD n 0) ∧ t.pc = 0 ∧
      KeepsRest [] (State.resetWith c) t ∧ t.Inv) ∧
    (c.memSize < img.length → load img (State.resetWith c) = .refused .imageTooLong)

/-- `Run(budget)` always returns, after at most `budget` steps. Along the states that the steps lead through, it takes
steps while they are Running and the budget lasts, and answers the state it has reached and the number of steps taken;
it returns Running exactly when all of the budget was taken and none of its steps ended the run. One more unit of budget
from a running state is one more step, counted whether or not it halts or faults (the spec's own choice D4). -/
def Obligations.RunEndsByBudgetOrTerminalStatus : Prop :=
  (∀ (budget : Nat) (s : State), ∃ r, run budget s = .next r ∧ r.steps ≤ budget) ∧
  (∀ (budget : Nat) (path : Nat → State) (r : RunResult), (∀ k : Nat, step (path k) = .next (path (k + 1))) →
    run budget (path 0) = .next r →
    r.state = path r.steps ∧ (∀ k : Nat, k < r.steps → (path k).status = .running) ∧
    (r.steps < budget → (path r.steps).status ≠ .running) ∧
    (r.outOfBudget = true ↔ ∀ k : Nat, k ≤ budget → (path k).status = .running)) ∧
  (∀ (n : Nat) (s t : State) (r : RunResult), s.status = .running → step s = .next t → run n t = .next r →
    run (n + 1) s = .next ⟨r.state, r.steps + 1⟩)

/-- A run may be continued: a budget of `m + n` does what a budget of `m` and then one of `n` do, steps added. -/
def Obligations.RunsCompose : Prop :=
  ∀ (m n : Nat) (s : State) (r r' : RunResult), run m s = .next r → run n r.state = .next r' →
    run (m + n) s = .next ⟨r'.state, r.steps + r'.steps⟩
end

