-- ==== Sys2Proof/Laws/Words.lean ====
section
/-! SUPPORT. Nibbles, register specifiers, bytes and words taken apart and put together again. -/

namespace Sys2Proof

@[simp] theorem hiNibble_nibblePair (h l : Nibble) : hiNibble (nibblePair h l) = h := by
  unfold hiNibble nibblePair
  exact BitVec.extractLsb'_append_eq_left

@[simp] theorem loNibble_nibblePair (h l : Nibble) : loNibble (nibblePair h l) = l := by
  unfold loNibble nibblePair
  exact BitVec.extractLsb'_append_eq_right

@[simp] theorem nibblePair_nibbles (b : Byte) : nibblePair (hiNibble b) (loNibble b) = b := by
  unfold hiNibble loNibble nibblePair
  exact BitVec.extractLsb'_append_extractLsb'_eq_extractLsb' (by decide) |>.trans (by simp)

@[simp] theorem regOfNibble_regNibble (r : RegSpec) : regOfNibble (regNibble r) = r := by
  cases r with
  | none => decide
  | some r => cases r <;> decide

@[simp] theorem regNibble_regOfNibble (n : Nibble) : regNibble (regOfNibble n) = n := by
  revert n; decide

@[simp] theorem hiNibble_regByte (rA rB : RegSpec) : hiNibble (regByte rA rB) = regNibble rA := by
  simp [regByte]

@[simp] theorem loNibble_regByte (rA rB : RegSpec) : loNibble (regByte rA rB) = regNibble rB := by
  simp [regByte]

@[simp] theorem regByte_of_nibbles (b : Byte) :
    regByte (regOfNibble (hiNibble b)) (regOfNibble (loNibble b)) = b := by
  simp [regByte]

/-- The eight bytes of a word make the word. -/
@[simp] theorem le64_wordBytes (v : Word) :
    le64 (wordByte v 0) (wordByte v 1) (wordByte v 2) (wordByte v 3)
      (wordByte v 4) (wordByte v 5) (wordByte v 6) (wordByte v 7) = v := by
  unfold le64 wordByte
  apply BitVec.eq_of_getLsbD_eq
  intro i hi
  simp only [BitVec.getLsbD_append, BitVec.getLsbD_extractLsb']
  repeat' split
  all_goals (rw [decide_eq_true (by omega), Bool.true_and]; congr 1; omega)

/-- The bytes of a word made of eight bytes are those bytes. -/
@[simp] theorem wordBytes_le64 (b0 b1 b2 b3 b4 b5 b6 b7 : Byte) :
    wordBytes (le64 b0 b1 b2 b3 b4 b5 b6 b7) = [b0, b1, b2, b3, b4, b5, b6, b7] := by
  unfold wordBytes le64 wordByte
  simp only [List.cons.injEq, and_true]
  refine ⟨?_, ?_, ?_, ?_, ?_, ?_, ?_, ?_⟩ <;>
  · apply BitVec.eq_of_getLsbD_eq
    intro i hi
    simp only [BitVec.getLsbD_append, BitVec.getLsbD_extractLsb']
    repeat' split
    all_goals first
      | omega
      | (rw [decide_eq_true (by omega), Bool.true_and]; congr 1; omega)

@[simp] theorem length_wordBytes (v : Word) : (wordBytes v).length = 8 := rfl

@[simp] theorem takeConst_wordBytes (v : Word) (rest : List Byte) :
    takeConst (wordBytes v ++ rest) = some (v, rest) := by
  simp [wordBytes, takeConst]

/-- What `takeConst` does: it takes eight bytes, or there are fewer. -/
theorem takeConst_eq_some {bs rest : List Byte} {v : Word} :
    takeConst bs = some (v, rest) ↔ bs = wordBytes v ++ rest := by
  constructor
  · intro h
    unfold takeConst at h
    split at h
    · simp only [Option.some.injEq, Prod.mk.injEq] at h
      obtain ⟨rfl, rfl⟩ := h
      simp
    · simp at h
  · rintro rfl
    simp

theorem takeConst_eq_none {bs : List Byte} : takeConst bs = none ↔ bs.length < 8 := by
  unfold takeConst
  split
  · simp
  · rename_i h
    simp only [true_iff]
    match bs, h with
    | [], _ | [_], _ | [_, _], _ | [_, _, _], _ | [_, _, _, _], _ | [_, _, _, _, _], _ | [_, _, _, _, _, _], _
    | [_, _, _, _, _, _, _], _ => simp
    | b0 :: b1 :: b2 :: b3 :: b4 :: b5 :: b6 :: b7 :: rest, h => exact absurd rfl (h b0 b1 b2 b3 b4 b5 b6 b7 rest)

/-- The natural number a word made of eight bytes is: `LE64` as R5 writes it. -/
theorem le64_toNat (b0 b1 b2 b3 b4 b5 b6 b7 : Byte) :
    (le64 b0 b1 b2 b3 b4 b5 b6 b7).toNat =
      b0.toNat + b1.toNat * 2 ^ 8 + b2.toNat * 2 ^ 16 + b3.toNat * 2 ^ 24 + b4.toNat * 2 ^ 32 +
        b5.toNat * 2 ^ 40 + b6.toNat * 2 ^ 48 + b7.toNat * 2 ^ 56 := by
  unfold le64
  have h0 := b0.isLt; have h1 := b1.isLt; have h2 := b2.isLt; have h3 := b3.isLt
  have h4 := b4.isLt; have h5 := b5.isLt; have h6 := b6.isLt; have h7 := b7.isLt
  simp only [BitVec.toNat_append, Nat.shiftLeft_eq, ← Nat.two_pow_add_eq_or_of_lt, *, Nat.mul_comm _ (2 ^ 8)]
  omega

end Sys2Proof
end

