-- ==== Sys2Proof/Laws/Decode.lean ====
section
/-! SUPPORT. The opcode map and the decoder: each row of R58 has its own byte, and what decoding can give. -/

namespace Sys2Proof

@[simp] theorem opOfByte_byte (op : Op) : opOfByte op.byte = some op := by cases op <;> rfl

theorem Op.mem_all (op : Op) : op ∈ Op.all := by cases op <;> decide

theorem Reg.mem_all (r : Reg) : r ∈ Reg.all := by cases r <;> decide

/-- No two rows of R58 share a byte. -/
theorem Op.byte_injective {p q : Op} (h : p.byte = q.byte) : p = q := by
  have := opOfByte_byte p
  rw [h, opOfByte_byte] at this
  exact (Option.some.inj this).symm

theorem opOfByte_eq_some {b : Byte} {op : Op} : opOfByte b = some op ↔ b = op.byte := by
  constructor
  · intro h
    have hb := List.find?_some (p := fun op : Op => op.byte == b) h
    exact (beq_iff_eq.1 hb).symm
  · rintro rfl
    simp

/-- The rows of R58 are the bytes that `ValidOp` of R57 accepts. -/
theorem opOfByte_isSome (b : Byte) : (opOfByte b).isSome = validOp (hiNibble b) (loNibble b) := by
  revert b; decide

theorem opOfByte_eq_none {b : Byte} : opOfByte b = none ↔ validOp (hiNibble b) (loNibble b) = false := by
  rw [← opOfByte_isSome, Option.isSome_eq_false_iff, Option.isNone_iff_eq_none]

/-- The format column of R58 is the one R55 gives the opcode. -/
theorem Op.formatOf_byte (op : Op) : formatOf (hiNibble op.byte) = some op.format := by cases op <;> decide

theorem Format.one_le_length (f : Format) : 1 ≤ f.length := by cases f <;> decide

theorem Format.length_le_max (f : Format) : f.length ≤ maxInstrLen := by cases f <;> decide

/-- `takeFields` fails exactly when a byte of the format is missing. -/
theorem takeFields_eq_none {f : Format} {bs : List Byte} : takeFields f bs = none ↔ bs.length + 1 < f.length := by
  cases f with
  | O => simp [takeFields, Format.length]
  | R => cases bs <;> simp [takeFields, Format.length]
  | D =>
    cases h : takeConst bs with
    | none => have := takeConst_eq_none.1 h; simp [takeFields, h, Format.length]; omega
    | some p =>
      have hn : ¬ takeConst bs = none := by simp [h]
      rw [takeConst_eq_none] at hn
      simp [takeFields, h, Format.length]; omega
  | I =>
    cases bs with
    | nil => simp [takeFields, Format.length]
    | cons b1 bs =>
      cases h : takeConst bs with
      | none => have := takeConst_eq_none.1 h; simp [takeFields, h, Format.length]; omega
      | some p =>
        have hn : ¬ takeConst bs = none := by simp [h]
        rw [takeConst_eq_none] at hn
        simp [takeFields, h, Format.length]; omega

/-- What decoding can give. -/
theorem decode_cases (bs : List Byte) :
    (bs = [] ∧ decode bs = .rejected .truncated) ∨
    (∃ b0 rest, bs = b0 :: rest ∧ opOfByte b0 = none ∧ decode bs = .rejected .invalidOp) ∨
    (∃ (op : Op) (rest : List Byte), bs = op.byte :: rest ∧ rest.length + 1 < op.format.length ∧
      decode bs = .rejected .truncated) ∨
    (∃ (op : Op) (rest : List Byte) (f : Fields) (rest' : List Byte), bs = op.byte :: rest ∧
      takeFields op.format rest = some (f, rest') ∧
      decode bs = .ok (op.build f) rest') := by
  cases bs with
  | nil => exact .inl ⟨rfl, rfl⟩
  | cons b0 rest =>
    refine .inr ?_
    cases ho : opOfByte b0 with
    | none => exact .inl ⟨b0, rest, rfl, ho, by simp [decode, ho]⟩
    | some op =>
      have hb := opOfByte_eq_some.1 ho
      subst hb
      refine .inr ?_
      cases hf : takeFields op.format rest with
      | none => exact .inl ⟨op, rest, rfl, takeFields_eq_none.1 hf, by simp [decode, hf]⟩
      | some p => exact .inr ⟨op, rest, p.1, p.2, rfl, hf, by simp [decode, hf]⟩

@[simp] theorem Op.op_build (op : Op) (f : Fields) : (op.build f).op = op := by cases op <;> rfl

end Sys2Proof
end

