-- ==== Sys2Proof/Laws/Flags.lean ====
section
/-! SUPPORT. Sign, negation and the signed value, in the terms of the library. -/

namespace Sys2Proof.Machine

theorem sign_eq_decide (v : Word) : sign v = decide (2 ^ 63 ≤ v.toNat) := by
  simp [sign, BitVec.msb_eq_decide]

theorem toSigned64_eq_toInt (u : Word) : toSigned64 u = u.toInt := by
  unfold toSigned64
  rw [BitVec.toInt_eq_toNat_cond]
  split <;> split <;> omega

theorem sign_iff_neg (u : Word) : sign u = true ↔ toSigned64 u < 0 := by
  have := u.isLt
  rw [sign_eq_decide, toSigned64, decide_eq_true_eq]
  split <;> omega

@[simp] theorem neg64_eq_neg (v : Word) : neg64 v = -v := by
  rw [neg64, BitVec.xor_allOnes]
  exact (BitVec.neg_eq_not_add v).symm

end Sys2Proof.Machine
end

