-- ==== Sys2Proof/Laws/Memory.lean ====
section
/-! SUPPORT. Memory: read after write, the canonical form is kept by every write, and equal reads mean equal memories. -/

namespace Sys2Proof.Machine

/-! ## One byte -/

theorem Memory.read_lt_of_wfFrom {m : Memory} {lo a : Nat} (h : Memory.wfFrom lo m = true) (ha : a < lo) :
    m.read a = Memory.unlisted := by
  cases m with
  | nil => rfl
  | cons c m =>
    obtain ⟨k, v⟩ := c
    simp only [Memory.wfFrom, Bool.and_eq_true, decide_eq_true_eq] at h
    have : a < k := by omega
    simp [Memory.read, this]

theorem Memory.wfFrom_mono {m : Memory} {lo lo' : Nat} (h : Memory.wfFrom lo m = true) (hl : lo' ≤ lo) :
    Memory.wfFrom lo' m = true := by
  cases m with
  | nil => rfl
  | cons c m =>
    obtain ⟨k, v⟩ := c
    simp only [Memory.wfFrom, Bool.and_eq_true, decide_eq_true_eq] at h ⊢
    exact ⟨⟨by omega, h.1.2⟩, h.2⟩

/-- Writing keeps the canonical form. -/
theorem Memory.wfFrom_write {m : Memory} {lo a : Nat} (b : Byte) (h : Memory.wfFrom lo m = true) (ha : lo ≤ a) :
    Memory.wfFrom lo (m.write a b) = true := by
  induction m generalizing lo with
  | nil =>
    unfold Memory.write
    split <;> simp_all [Memory.wfFrom]
  | cons c m ih =>
    obtain ⟨k, v⟩ := c
    have h' := h
    simp only [Memory.wfFrom, Bool.and_eq_true, decide_eq_true_eq] at h'
    obtain ⟨⟨hk, hv⟩, hm⟩ := h'
    unfold Memory.write
    split
    · split
      · exact h
      · rename_i hlt hb
        simp only [Memory.wfFrom, Bool.and_eq_true, decide_eq_true_eq, bne_iff_ne, ne_eq]
        exact ⟨⟨ha, hb⟩, ⟨by omega, by simpa using hv⟩, hm⟩
    · split
      · rename_i heq
        subst heq
        split
        · exact Memory.wfFrom_mono hm (by omega)
        · rename_i hb
          simp only [Memory.wfFrom, Bool.and_eq_true, decide_eq_true_eq, bne_iff_ne, ne_eq]
          exact ⟨⟨ha, hb⟩, hm⟩
      · simp only [Memory.wfFrom, Bool.and_eq_true, decide_eq_true_eq]
        exact ⟨⟨hk, hv⟩, ih hm (by omega)⟩

theorem Memory.wf_write {m : Memory} (a : Nat) (b : Byte) (h : m.wf = true) : (m.write a b).wf = true :=
  Memory.wfFrom_write b h (Nat.zero_le _)

@[simp] theorem Memory.below_nil (n : Nat) : Memory.below n [] = true := rfl

theorem Memory.below_cons (n : Nat) (c : Host.Cell) (m : Memory) :
    Memory.below n (c :: m) = (decide (c.1 < n) && m.below n) := rfl

/-- Writing inside the bound keeps every listed offset inside it. -/
theorem Memory.below_write {m : Memory} {n a : Nat} (b : Byte) (h : m.below n = true) (ha : a < n) :
    (m.write a b).below n = true := by
  induction m with
  | nil =>
    unfold Memory.write
    split <;> simp [Memory.below_cons, ha]
  | cons c m ih =>
    obtain ⟨k, v⟩ := c
    rw [Memory.below_cons, Bool.and_eq_true] at h
    unfold Memory.write
    repeat' split
    all_goals simp [Memory.below_cons, ha, h.1, h.2, ih h.2]

/-- A write is read back. -/
@[simp] theorem Memory.read_write_self {m : Memory} (a : Nat) (b : Byte) (h : m.wf = true) :
    (m.write a b).read a = b := by
  suffices ∀ lo, Memory.wfFrom lo m = true → (m.write a b).read a = b from this 0 h
  clear h
  induction m with
  | nil =>
    intro lo _
    unfold Memory.write
    split <;> simp_all [Memory.read]
  | cons c m ih =>
    intro lo h
    obtain ⟨k, v⟩ := c
    simp only [Memory.wfFrom, Bool.and_eq_true, decide_eq_true_eq] at h
    unfold Memory.write
    split
    · split <;> simp_all [Memory.read]
    · split
      · rename_i heq
        subst heq
        split
        · rename_i hb
          rw [hb]
          exact Memory.read_lt_of_wfFrom h.2 (by omega)
        · simp [Memory.read]
      · rename_i h1 h2
        simp only [Memory.read, h1, h2, if_false]
        exact ih _ h.2

/-- A write leaves every other byte alone. -/
theorem Memory.read_write_ne {m : Memory} {a n : Nat} (b : Byte) (h : m.wf = true) (hn : n ≠ a) :
    (m.write a b).read n = m.read n := by
  suffices ∀ lo, Memory.wfFrom lo m = true → (m.write a b).read n = m.read n from this 0 h
  clear h
  induction m with
  | nil =>
    intro lo _
    unfold Memory.write
    split
    · rfl
    · simp [Memory.read, hn]
  | cons c m ih =>
    intro lo h
    obtain ⟨k, v⟩ := c
    simp only [Memory.wfFrom, Bool.and_eq_true, decide_eq_true_eq] at h
    unfold Memory.write
    split
    · split
      · rfl
      · rename_i hlt _
        by_cases hna : n < a
        · have : n < k := by omega
          simp [Memory.read, hna, this]
        · simp [Memory.read, hna, hn]
    · split
      · rename_i heq
        subst heq
        have hm := fun hlt => Memory.read_lt_of_wfFrom (a := n) h.2 hlt
        split
        · by_cases hlt : n < a
          · simp [Memory.read, hlt, hm (by omega)]
          · simp [Memory.read, hlt, hn]
        · simp [Memory.read, hn]
      · simp only [Memory.read, ih _ h.2]

theorem Memory.read_write {m : Memory} (a n : Nat) (b : Byte) (h : m.wf = true) :
    (m.write a b).read n = if n = a then b else m.read n := by
  by_cases hn : n = a
  · subst hn; simp [h]
  · simp [hn, Memory.read_write_ne b h hn]

/-- Two memories in canonical form that read the same everywhere are equal. -/
theorem Memory.ext_read {m m' : Memory} (h : m.wf = true) (h' : m'.wf = true)
    (heq : ∀ n, m.read n = m'.read n) : m = m' := by
  suffices ∀ lo, Memory.wfFrom lo m = true → Memory.wfFrom lo m' = true → m = m' from this 0 h h'
  clear h h'
  induction m generalizing m' with
  | nil =>
    intro lo _ h'
    cases m' with
    | nil => rfl
    | cons c m' =>
      obtain ⟨k, v⟩ := c
      have := heq k
      simp only [Memory.wfFrom, Bool.and_eq_true, bne_iff_ne] at h'
      simp [Memory.read] at this
      exact absurd this.symm h'.1.2
  | cons c m ih =>
    intro lo h h'
    obtain ⟨k, v⟩ := c
    simp only [Memory.wfFrom, Bool.and_eq_true, bne_iff_ne, decide_eq_true_eq] at h
    cases m' with
    | nil =>
      have := heq k
      simp [Memory.read] at this
      exact absurd this h.1.2
    | cons c' m' =>
      obtain ⟨k', v'⟩ := c'
      simp only [Memory.wfFrom, Bool.and_eq_true, bne_iff_ne, decide_eq_true_eq] at h'
      have hk : k = k' := by
        rcases Nat.lt_trichotomy k k' with hlt | he | hgt
        · have := heq k
          simp [Memory.read, hlt] at this
          exact absurd this h.1.2
        · exact he
        · have := heq k'
          simp [Memory.read, hgt] at this
          exact absurd this.symm h'.1.2
      subst hk
      have hv : v = v' := by simpa [Memory.read] using heq k
      subst hv
      congr 1
      refine ih (fun n => ?_) (k + 1) h.2 h'.2
      by_cases hn : n ≤ k
      · rw [Memory.read_lt_of_wfFrom h.2 (by omega), Memory.read_lt_of_wfFrom h'.2 (by omega)]
      · have := heq n
        have h1 : ¬ n < k := by omega
        have h2 : n ≠ k := by omega
        simpa [Memory.read, h1, h2] using this

/-! ## Several bytes -/

theorem Memory.wf_writeBytes {m : Memory} (a : Nat) (bs : List Byte) (h : m.wf = true) :
    (m.writeBytes a bs).wf = true := by
  induction bs generalizing m a with
  | nil => exact h
  | cons b bs ih => exact ih _ (Memory.wf_write a b h)

theorem Memory.below_writeBytes {m : Memory} {n a : Nat} (bs : List Byte) (h : m.below n = true)
    (ha : a + bs.length ≤ n) : (m.writeBytes a bs).below n = true := by
  induction bs generalizing m a with
  | nil => exact h
  | cons b bs ih =>
    simp only [List.length_cons] at ha
    exact ih (Memory.below_write b h (by omega)) (by omega)

theorem Memory.read_writeBytes_outside {m : Memory} {a n : Nat} (bs : List Byte) (h : m.wf = true)
    (hn : n < a ∨ a + bs.length ≤ n) : (m.writeBytes a bs).read n = m.read n := by
  induction bs generalizing m a with
  | nil => rfl
  | cons b bs ih =>
    simp only [List.length_cons] at hn
    rw [Memory.writeBytes, ih (Memory.wf_write a b h) (by omega), Memory.read_write_ne b h (by omega)]

theorem Memory.read_writeBytes_inside {m : Memory} {a i : Nat} (bs : List Byte) (h : m.wf = true)
    (hi : i < bs.length) : (m.writeBytes a bs).read (a + i) = bs[i] := by
  induction bs generalizing m a i with
  | nil => simp at hi
  | cons b bs ih =>
    rw [Memory.writeBytes]
    cases i with
    | zero =>
      rw [Nat.add_zero, Memory.read_writeBytes_outside bs (Memory.wf_write a b h) (by omega)]
      simp [h]
    | succ i =>
      have := ih (a := a + 1) (i := i) (Memory.wf_write a b h) (by simpa using hi)
      rw [show a + (i + 1) = a + 1 + i by omega, this]
      rfl

@[simp] theorem Memory.length_readBytes (m : Memory) (a n : Nat) : (m.readBytes a n).length = n := by
  induction n generalizing a with
  | zero => rfl
  | succ n ih => simp [Memory.readBytes, ih]

@[simp] theorem Memory.getElem_readBytes (m : Memory) (a n i : Nat) (hi : i < (m.readBytes a n).length) :
    (m.readBytes a n)[i] = m.read (a + i) := by
  induction n generalizing a i with
  | zero => simp at hi
  | succ n ih =>
    cases i with
    | zero => rfl
    | succ i =>
      simp only [Memory.readBytes, List.getElem_cons_succ]
      rw [ih]
      congr 1
      omega

/-- A longer read is a shorter one and the rest. -/
theorem Memory.readBytes_add (m : Memory) (a n k : Nat) :
    m.readBytes a (n + k) = m.readBytes a n ++ m.readBytes (a + n) k := by
  induction n generalizing a with
  | zero => simp [Memory.readBytes]
  | succ n ih =>
    rw [show n + 1 + k = n + k + 1 by omega, Memory.readBytes, ih, Memory.readBytes,
      show a + 1 + n = a + (n + 1) by omega]
    rfl

/-! ## Words -/

theorem wordBytes_getElem (v : Word) (i : Nat) (hi : i < (wordBytes v).length) :
    (wordBytes v)[i] = wordByte v i := by
  simp only [length_wordBytes] at hi
  have : i = 0 ∨ i = 1 ∨ i = 2 ∨ i = 3 ∨ i = 4 ∨ i = 5 ∨ i = 6 ∨ i = 7 := by omega
  obtain rfl | rfl | rfl | rfl | rfl | rfl | rfl | rfl := this <;> rfl

/-- The bytes of the word read are the bytes of memory. -/
theorem Memory.wordByte_readWord (m : Memory) (a : Nat) {i : Nat} (hi : i < 8) :
    wordByte (m.readWord a) i = m.read (a + i) := by
  have h : wordBytes (m.readWord a) = [m.read a, m.read (a + 1), m.read (a + 2), m.read (a + 3), m.read (a + 4),
      m.read (a + 5), m.read (a + 6), m.read (a + 7)] := wordBytes_le64 ..
  simp only [wordBytes, List.cons.injEq] at h
  have : i = 0 ∨ i = 1 ∨ i = 2 ∨ i = 3 ∨ i = 4 ∨ i = 5 ∨ i = 6 ∨ i = 7 := by omega
  obtain rfl | rfl | rfl | rfl | rfl | rfl | rfl | rfl := this <;> simp [h]

/-- A word whose eight bytes memory holds is the word read. -/
theorem Memory.readWord_eq {m : Memory} {a : Nat} {v : Word} (h : ∀ i, i < 8 → m.read (a + i) = wordByte v i) :
    m.readWord a = v := by
  have h0 := h 0 (by omega)
  rw [Nat.add_zero] at h0
  rw [Memory.readWord, h0, h 1 (by omega), h 2 (by omega), h 3 (by omega), h 4 (by omega), h 5 (by omega),
    h 6 (by omega), h 7 (by omega), le64_wordBytes]

theorem Memory.wf_writeWord {m : Memory} (a : Nat) (v : Word) (h : m.wf = true) : (m.writeWord a v).wf = true :=
  Memory.wf_writeBytes _ _ h

theorem Memory.read_writeWord_outside {m : Memory} {a n : Nat} (v : Word) (h : m.wf = true)
    (hn : n < a ∨ a + 8 ≤ n) : (m.writeWord a v).read n = m.read n :=
  Memory.read_writeBytes_outside _ h hn

theorem Memory.read_writeWord_inside {m : Memory} {a i : Nat} (v : Word) (h : m.wf = true) (hi : i < 8) :
    (m.writeWord a v).read (a + i) = wordByte v i := by
  have hi' : i < (wordBytes v).length := by rw [length_wordBytes]; exact hi
  rw [Memory.writeWord, Memory.read_writeBytes_inside (wordBytes v) h hi', wordBytes_getElem]

/-- The word stored is the word loaded. -/
@[simp] theorem Memory.readWord_writeWord {m : Memory} (a : Nat) (v : Word) (h : m.wf = true) :
    (m.writeWord a v).readWord a = v := by
  have h0 := Memory.read_writeWord_inside (a := a) (i := 0) v h (by omega)
  rw [Nat.add_zero] at h0
  rw [Memory.readWord, h0, Memory.read_writeWord_inside v h (by omega), Memory.read_writeWord_inside v h (by omega),
    Memory.read_writeWord_inside v h (by omega), Memory.read_writeWord_inside v h (by omega),
    Memory.read_writeWord_inside v h (by omega), Memory.read_writeWord_inside v h (by omega),
    Memory.read_writeWord_inside v h (by omega), le64_wordBytes]

/-- Words read alike where the eight bytes read alike. -/
theorem Memory.readWord_congr {m m' : Memory} {a : Nat} (h : ∀ i, i < 8 → m.read (a + i) = m'.read (a + i)) :
    m.readWord a = m'.readWord a := by
  have h0 := h 0 (by omega)
  rw [Nat.add_zero] at h0
  rw [Memory.readWord, Memory.readWord, h0, h 1 (by omega), h 2 (by omega), h 3 (by omega), h 4 (by omega),
    h 5 (by omega), h 6 (by omega), h 7 (by omega)]

end Sys2Proof.Machine
end

