-- ==== Sys2Proof/Laws/State.lean ====
section
/-! SUPPORT. One lemma for each field of State under each update, and what reading a register after an update gives. -/

namespace Sys2Proof.Machine

/-! ## Registers -/

@[simp] theorem RegFile.get_set_self (f : RegFile) (r : Reg) (v : Word) : (f.set r v).get r = v := by
  cases r <;> rfl

@[simp] theorem RegFile.get_set_ne (f : RegFile) {q r : Reg} (v : Word) (h : q ≠ r) :
    (f.set r v).get q = f.get q := by
  cases r <;> cases q <;> first | rfl | exact absurd rfl h

theorem RegFile.get_set (f : RegFile) (r q : Reg) (v : Word) :
    (f.set r v).get q = if q = r then v else f.get q := by
  by_cases h : q = r
  · subst h; simp
  · simp [h]

/-- Two register files that read the same everywhere are equal. -/
theorem RegFile.ext_get {f g : RegFile} (h : ∀ r, f.get r = g.get r) : f = g := by
  obtain ⟨⟩ := f
  obtain ⟨⟩ := g
  simp only [RegFile.mk.injEq]
  exact ⟨h .rax, h .rcx, h .rdx, h .rbx, h .rsp, h .rbp, h .rsi, h .rdi, h .r8, h .r9, h .r10, h .r11, h .r12,
    h .r13, h .r14⟩

@[simp] theorem RegFile.get_zero (r : Reg) : RegFile.zero.get r = 0 := by cases r <;> rfl

theorem State.reg_setReg (s : State) (r q : Reg) (v : Word) :
    (s.setReg r v).reg q = if q = r then v else s.reg q := RegFile.get_set _ _ _ _

@[simp] theorem State.reg_setReg_self (s : State) (r : Reg) (v : Word) : (s.setReg r v).reg r = v :=
  RegFile.get_set_self _ _ _

@[simp] theorem State.reg_setReg_ne (s : State) {q r : Reg} (v : Word) (h : q ≠ r) :
    (s.setReg r v).reg q = s.reg q := RegFile.get_set_ne _ _ h

/-! ## After `setReg` -/

@[simp] theorem State.setReg_cfg (s : State) (r : Reg) (v : Word) : (s.setReg r v).cfg = s.cfg := rfl
@[simp] theorem State.setReg_regs (s : State) (r : Reg) (v : Word) : (s.setReg r v).regs = s.regs.set r v := rfl
@[simp] theorem State.setReg_pc (s : State) (r : Reg) (v : Word) : (s.setReg r v).pc = s.pc := rfl
@[simp] theorem State.setReg_flags (s : State) (r : Reg) (v : Word) : (s.setReg r v).flags = s.flags := rfl
@[simp] theorem State.setReg_status (s : State) (r : Reg) (v : Word) : (s.setReg r v).status = s.status := rfl
@[simp] theorem State.setReg_mem (s : State) (r : Reg) (v : Word) : (s.setReg r v).mem = s.mem := rfl
@[simp] theorem State.setReg_wordInBounds (s : State) (r : Reg) (v : Word) (w' : Word) :
    (s.setReg r v).wordInBounds w' = s.wordInBounds w' := rfl

/-! ## After `setPc` -/

@[simp] theorem State.setPc_cfg (s : State) (w : Word) : (s.setPc w).cfg = s.cfg := rfl
@[simp] theorem State.setPc_regs (s : State) (w : Word) : (s.setPc w).regs = s.regs := rfl
@[simp] theorem State.setPc_pc (s : State) (w : Word) : (s.setPc w).pc = w := rfl
@[simp] theorem State.setPc_flags (s : State) (w : Word) : (s.setPc w).flags = s.flags := rfl
@[simp] theorem State.setPc_status (s : State) (w : Word) : (s.setPc w).status = s.status := rfl
@[simp] theorem State.setPc_mem (s : State) (w : Word) : (s.setPc w).mem = s.mem := rfl
@[simp] theorem State.setPc_reg (s : State) (w : Word) (q : Reg) : (s.setPc w).reg q = s.reg q := rfl
@[simp] theorem State.setPc_wordInBounds (s : State) (w : Word) (w' : Word) :
    (s.setPc w).wordInBounds w' = s.wordInBounds w' := rfl

/-! ## After `setFlags` -/

@[simp] theorem State.setFlags_cfg (s : State) (f : Flags) : (s.setFlags f).cfg = s.cfg := rfl
@[simp] theorem State.setFlags_regs (s : State) (f : Flags) : (s.setFlags f).regs = s.regs := rfl
@[simp] theorem State.setFlags_pc (s : State) (f : Flags) : (s.setFlags f).pc = s.pc := rfl
@[simp] theorem State.setFlags_flags (s : State) (f : Flags) : (s.setFlags f).flags = f := rfl
@[simp] theorem State.setFlags_status (s : State) (f : Flags) : (s.setFlags f).status = s.status := rfl
@[simp] theorem State.setFlags_mem (s : State) (f : Flags) : (s.setFlags f).mem = s.mem := rfl
@[simp] theorem State.setFlags_reg (s : State) (f : Flags) (q : Reg) : (s.setFlags f).reg q = s.reg q := rfl
@[simp] theorem State.setFlags_wordInBounds (s : State) (f : Flags) (w' : Word) :
    (s.setFlags f).wordInBounds w' = s.wordInBounds w' := rfl

/-! ## After `setStatus` -/

@[simp] theorem State.setStatus_cfg (s : State) (v : Status) : (s.setStatus v).cfg = s.cfg := rfl
@[simp] theorem State.setStatus_regs (s : State) (v : Status) : (s.setStatus v).regs = s.regs := rfl
@[simp] theorem State.setStatus_pc (s : State) (v : Status) : (s.setStatus v).pc = s.pc := rfl
@[simp] theorem State.setStatus_flags (s : State) (v : Status) : (s.setStatus v).flags = s.flags := rfl
@[simp] theorem State.setStatus_status (s : State) (v : Status) : (s.setStatus v).status = v := rfl
@[simp] theorem State.setStatus_mem (s : State) (v : Status) : (s.setStatus v).mem = s.mem := rfl
@[simp] theorem State.setStatus_reg (s : State) (v : Status) (q : Reg) : (s.setStatus v).reg q = s.reg q := rfl
@[simp] theorem State.setStatus_wordInBounds (s : State) (v : Status) (w' : Word) :
    (s.setStatus v).wordInBounds w' = s.wordInBounds w' := rfl

/-! ## After `setMem` -/

@[simp] theorem State.setMem_cfg (s : State) (m : Memory) : (s.setMem m).cfg = s.cfg := rfl
@[simp] theorem State.setMem_regs (s : State) (m : Memory) : (s.setMem m).regs = s.regs := rfl
@[simp] theorem State.setMem_pc (s : State) (m : Memory) : (s.setMem m).pc = s.pc := rfl
@[simp] theorem State.setMem_flags (s : State) (m : Memory) : (s.setMem m).flags = s.flags := rfl
@[simp] theorem State.setMem_status (s : State) (m : Memory) : (s.setMem m).status = s.status := rfl
@[simp] theorem State.setMem_mem (s : State) (m : Memory) : (s.setMem m).mem = m := rfl
@[simp] theorem State.setMem_reg (s : State) (m : Memory) (q : Reg) : (s.setMem m).reg q = s.reg q := rfl
@[simp] theorem State.setMem_wordInBounds (s : State) (m : Memory) (w' : Word) :
    (s.setMem m).wordInBounds w' = s.wordInBounds w' := rfl

/-! ## The state after Reset -/

@[simp] theorem State.resetWith_cfg (c : Config) : (State.resetWith c).cfg = c := rfl
@[simp] theorem State.resetWith_pc (c : Config) : (State.resetWith c).pc = 0 := rfl
@[simp] theorem State.resetWith_flags (c : Config) : (State.resetWith c).flags = ⟨false, false, false⟩ := rfl
@[simp] theorem State.resetWith_status (c : Config) : (State.resetWith c).status = .running := rfl
@[simp] theorem State.resetWith_mem (c : Config) : (State.resetWith c).mem = [] := rfl
@[simp] theorem State.resetWith_reg (c : Config) (r : Reg) : (State.resetWith c).reg r = 0 := RegFile.get_zero r

end Sys2Proof.Machine
end

