-- ==== Sys2Proof/Laws/Ops.lean ====
section
/-! SUPPORT. For each shared operation, once, everything it can do. -/

namespace Sys2Proof.Machine

/-! ## Exceptions and register operands -/

@[simp] theorem raise_eq (e : Exc) (s : State) : raise e s = .next (s.setStatus e.status) := rfl

@[simp] theorem Exc.status_invalidAddress : Exc.invalidAddress.status = .invalidAddress := rfl
@[simp] theorem Exc.status_invalidInstruction : Exc.invalidInstruction.status = .invalidInstruction := rfl

@[simp] theorem withReg_some (a : Reg) (s : State) (k : Reg → Result) : withReg (some a) s k = k a := rfl
@[simp] theorem withReg_none (s : State) (k : Reg → Result) :
    withReg none s k = .next (s.setStatus .invalidInstruction) := rfl
@[simp] theorem withRegs_some (a b : Reg) (s : State) (k : Reg → Reg → Result) :
    withRegs (some a) (some b) s k = k a b := rfl
@[simp] theorem withRegs_none_left (rB : RegSpec) (s : State) (k : Reg → Reg → Result) :
    withRegs none rB s k = .next (s.setStatus .invalidInstruction) := rfl
@[simp] theorem withRegs_none_right (rA : RegSpec) (s : State) (k : Reg → Reg → Result) :
    withRegs rA none s k = .next (s.setStatus .invalidInstruction) := by
  cases rA <;> rfl

/-- A required register operand: it names a register and the instruction goes on, or InvalidInstruction is raised. -/
theorem withReg_next {r : RegSpec} {s t : State} {k : Reg → Result} (h : withReg r s k = .next t) :
    (∃ a, r = some a ∧ k a = .next t) ∨ (r = none ∧ t = s.setStatus .invalidInstruction) := by
  cases r with
  | none => exact .inr ⟨rfl, by simpa using h.symm⟩
  | some a => exact .inl ⟨a, rfl, h⟩

/-- Two required register operands. -/
theorem withRegs_next {rA rB : RegSpec} {s t : State} {k : Reg → Reg → Result} (h : withRegs rA rB s k = .next t) :
    (∃ a b, rA = some a ∧ rB = some b ∧ k a b = .next t) ∨
      ((rA = none ∨ rB = none) ∧ t = s.setStatus .invalidInstruction) := by
  cases rA with
  | none => exact .inr ⟨.inl rfl, by simpa using h.symm⟩
  | some a =>
    cases rB with
    | none => exact .inr ⟨.inr rfl, by simpa using h.symm⟩
    | some b => exact .inl ⟨a, b, rfl, rfl, h⟩

/-! ## Memory -/

@[simp] theorem State.wordInBounds_iff (s : State) (addr : Word) :
    s.wordInBounds addr = true ↔ addr.toNat + 8 ≤ s.cfg.memSize := by
  simp [State.wordInBounds]

theorem memRead_ok {s : State} {addr : Word} (h : addr.toNat + 8 ≤ s.cfg.memSize) :
    memRead s addr = .ok (s.mem.readWord addr.toNat) := by
  simp [memRead, h]

theorem memRead_error {s : State} {addr : Word} (h : s.cfg.memSize < addr.toNat + 8) :
    memRead s addr = .error .invalidAddress := by
  have : ¬ addr.toNat + 8 ≤ s.cfg.memSize := by omega
  simp [memRead, this]

/-- A load answers the word at its address, or the address is out of bounds. -/
theorem memRead_cases (s : State) (addr : Word) :
    (addr.toNat + 8 ≤ s.cfg.memSize ∧ memRead s addr = .ok (s.mem.readWord addr.toNat)) ∨
      (s.cfg.memSize < addr.toNat + 8 ∧ memRead s addr = .error .invalidAddress) := by
  by_cases h : addr.toNat + 8 ≤ s.cfg.memSize
  · exact .inl ⟨h, memRead_ok h⟩
  · exact .inr ⟨by omega, memRead_error (by omega)⟩

theorem memWrite_ok {s : State} {addr v : Word} (h : addr.toNat + 8 ≤ s.cfg.memSize) :
    memWrite s addr v = .ok (s.setMem (s.mem.writeWord addr.toNat v)) := by
  simp [memWrite, h]

theorem memWrite_error {s : State} {addr v : Word} (h : s.cfg.memSize < addr.toNat + 8) :
    memWrite s addr v = .error .invalidAddress := by
  have : ¬ addr.toNat + 8 ≤ s.cfg.memSize := by omega
  simp [memWrite, this]

/-- A store writes all eight bytes, or its address is out of bounds and it writes none. -/
theorem memWrite_cases (s : State) (addr v : Word) :
    (addr.toNat + 8 ≤ s.cfg.memSize ∧ memWrite s addr v = .ok (s.setMem (s.mem.writeWord addr.toNat v))) ∨
      (s.cfg.memSize < addr.toNat + 8 ∧ memWrite s addr v = .error .invalidAddress) := by
  by_cases h : addr.toNat + 8 ≤ s.cfg.memSize
  · exact .inl ⟨h, memWrite_ok h⟩
  · exact .inr ⟨by omega, memWrite_error (by omega)⟩

/-- A push stores below the stack pointer and moves it, or its address is out of bounds. -/
theorem push_cases (s : State) (v : Word) :
    ((pushAddr s).toNat + 8 ≤ s.cfg.memSize ∧
      push s v = .ok ((s.setMem (s.mem.writeWord (pushAddr s).toNat v)).setReg .rsp (pushAddr s))) ∨
    (s.cfg.memSize < (pushAddr s).toNat + 8 ∧ push s v = .error .invalidAddress) := by
  rcases memWrite_cases s (pushAddr s) v with ⟨h, e⟩ | ⟨h, e⟩
  · exact .inl ⟨h, by simp [push, e]⟩
  · exact .inr ⟨h, by simp [push, e]⟩

/-- A pop loads at the stack pointer and moves it, or its address is out of bounds. -/
theorem pop_cases (s : State) :
    ((popAddr s).toNat + 8 ≤ s.cfg.memSize ∧
      pop s = .ok (s.mem.readWord (popAddr s).toNat, s.setReg .rsp (s.reg .rsp + 8))) ∨
    (s.cfg.memSize < (popAddr s).toNat + 8 ∧ pop s = .error .invalidAddress) := by
  rcases memRead_cases s (popAddr s) with ⟨h, e⟩ | ⟨h, e⟩
  · exact .inl ⟨h, by simp [pop, e]⟩
  · exact .inr ⟨h, by simp [pop, e]⟩

/-- The register write of `popq` writes one register, whatever the parameters. -/
theorem popInto_eq (t : State) (a : Reg) (v : Word) :
    popInto t a v = t ∨ ∃ w, popInto t a v = t.setReg a w := by
  unfold popInto
  split
  · rename_i ha
    subst ha
    split
    · exact .inr ⟨_, rfl⟩
    · exact .inr ⟨_, rfl⟩
    · exact .inl rfl
  · exact .inr ⟨_, rfl⟩

@[simp] theorem popInto_cfg (t : State) (a : Reg) (v : Word) : (popInto t a v).cfg = t.cfg := by
  rcases popInto_eq t a v with e | ⟨w, e⟩ <;> simp [e]

@[simp] theorem popInto_pc (t : State) (a : Reg) (v : Word) : (popInto t a v).pc = t.pc := by
  rcases popInto_eq t a v with e | ⟨w, e⟩ <;> simp [e]

@[simp] theorem popInto_flags (t : State) (a : Reg) (v : Word) : (popInto t a v).flags = t.flags := by
  rcases popInto_eq t a v with e | ⟨w, e⟩ <;> simp [e]

@[simp] theorem popInto_status (t : State) (a : Reg) (v : Word) : (popInto t a v).status = t.status := by
  rcases popInto_eq t a v with e | ⟨w, e⟩ <;> simp [e]

@[simp] theorem popInto_mem (t : State) (a : Reg) (v : Word) : (popInto t a v).mem = t.mem := by
  rcases popInto_eq t a v with e | ⟨w, e⟩ <;> simp [e]

theorem popInto_reg_ne (t : State) {a q : Reg} (v : Word) (h : q ≠ a) : (popInto t a v).reg q = t.reg q := by
  rcases popInto_eq t a v with e | ⟨w, e⟩ <;> simp [e, h]

theorem popInto_ne (t : State) {a : Reg} (v : Word) (h : a ≠ .rsp) : popInto t a v = t.setReg a v := by
  simp [popInto, h]

/-! ## What each shared meaning can do -/

theorem condMove_next {c : CondFn} {rA rB : RegSpec} {s t : State} (h : condMove c rA rB s = .next t) :
    (∃ a b, rA = some a ∧ rB = some b ∧ condHolds c s.flags = true ∧
      t = (s.setReg b (s.reg a)).setPc (s.valP .R)) ∨
    (∃ a b, rA = some a ∧ rB = some b ∧ condHolds c s.flags = false ∧ t = s.setPc (s.valP .R)) ∨
    ((rA = none ∨ rB = none) ∧ t = s.setStatus .invalidInstruction) := by
  rcases withRegs_next h with ⟨a, b, ha, hb, h⟩ | h
  · cases hc : condHolds c s.flags
    · exact .inr (.inl ⟨a, b, ha, hb, rfl, by simpa [hc] using h.symm⟩)
    · exact .inl ⟨a, b, ha, hb, rfl, by simpa [hc] using h.symm⟩
  · exact .inr (.inr h)

theorem aluOp_next {fn : AluFn} {rA rB : RegSpec} {s t : State} (h : aluOp fn rA rB s = .next t) :
    (∃ a b, rA = some a ∧ rB = some b ∧
      t = ((s.setReg b (aluResult fn (s.reg a) (s.reg b)).1).setFlags
        (aluFlags fn (s.reg a) (s.reg b))).setPc (s.valP .R)) ∨
    ((rA = none ∨ rB = none) ∧ t = s.setStatus .invalidInstruction) := by
  rcases withRegs_next h with ⟨a, b, ha, hb, h⟩ | h
  · exact .inl ⟨a, b, ha, hb, by simpa using h.symm⟩
  · exact .inr h

theorem jump_next {c : CondFn} {dest : Word} {s t : State} (h : jump c dest s = .next t) :
    t = s.setPc (if condHolds c s.flags then dest else s.valP .D) := by
  simpa [jump] using h.symm

theorem exec_irmovq_next {fill rB : RegSpec} {v : Word} {s t : State} (h : exec (.irmovq fill rB v) s = .next t) :
    (∃ b, rB = some b ∧ t = (s.setReg b v).setPc (s.valP .I)) ∨
    (rB = none ∧ t = s.setStatus .invalidInstruction) := by
  rcases withReg_next h with ⟨b, hb, h⟩ | h
  · exact .inl ⟨b, hb, by simpa using h.symm⟩
  · exact .inr h

theorem exec_rmmovq_next {rA rB : RegSpec} {d : Word} {s t : State} (h : exec (.rmmovq rA rB d) s = .next t) :
    (∃ a b, rA = some a ∧ rB = some b ∧ (effAddr s b d).toNat + 8 ≤ s.cfg.memSize ∧
      t = (s.setMem (s.mem.writeWord (effAddr s b d).toNat (s.reg a))).setPc (s.valP .I)) ∨
    (∃ a b, rA = some a ∧ rB = some b ∧ s.cfg.memSize < (effAddr s b d).toNat + 8 ∧
      t = s.setStatus .invalidAddress) ∨
    ((rA = none ∨ rB = none) ∧ t = s.setStatus .invalidInstruction) := by
  rcases withRegs_next h with ⟨a, b, ha, hb, h⟩ | h
  · rcases memWrite_cases s (effAddr s b d) (s.reg a) with ⟨hb', e⟩ | ⟨hb', e⟩
    · exact .inl ⟨a, b, ha, hb, hb', by simpa [e] using h.symm⟩
    · exact .inr (.inl ⟨a, b, ha, hb, hb', by simpa [e] using h.symm⟩)
  · exact .inr (.inr h)

theorem exec_mrmovq_next {rA rB : RegSpec} {d : Word} {s t : State} (h : exec (.mrmovq rA rB d) s = .next t) :
    (∃ a b, rA = some a ∧ rB = some b ∧ (effAddr s b d).toNat + 8 ≤ s.cfg.memSize ∧
      t = (s.setReg a (s.mem.readWord (effAddr s b d).toNat)).setPc (s.valP .I)) ∨
    (∃ a b, rA = some a ∧ rB = some b ∧ s.cfg.memSize < (effAddr s b d).toNat + 8 ∧
      t = s.setStatus .invalidAddress) ∨
    ((rA = none ∨ rB = none) ∧ t = s.setStatus .invalidInstruction) := by
  rcases withRegs_next h with ⟨a, b, ha, hb, h⟩ | h
  · rcases memRead_cases s (effAddr s b d) with ⟨hb', e⟩ | ⟨hb', e⟩
    · exact .inl ⟨a, b, ha, hb, hb', by simpa [e] using h.symm⟩
    · exact .inr (.inl ⟨a, b, ha, hb, hb', by simpa [e] using h.symm⟩)
  · exact .inr (.inr h)

theorem exec_call_next {dest : Word} {s t : State} (h : exec (.call dest) s = .next t) :
    ((pushAddr s).toNat + 8 ≤ s.cfg.memSize ∧
      t = ((s.setMem (s.mem.writeWord (pushAddr s).toNat (s.valP .D))).setReg .rsp (pushAddr s)).setPc dest) ∨
    (s.cfg.memSize < (pushAddr s).toNat + 8 ∧ t = s.setStatus .invalidAddress) := by
  rcases push_cases s (s.valP .D) with ⟨hb, e⟩ | ⟨hb, e⟩
  · exact .inl ⟨hb, by simpa [exec, execCall, e] using h.symm⟩
  · exact .inr ⟨hb, by simpa [exec, execCall, e] using h.symm⟩

theorem exec_ret_next {s t : State} (h : exec .ret s = .next t) :
    ((popAddr s).toNat + 8 ≤ s.cfg.memSize ∧
      t = (s.setReg .rsp (s.reg .rsp + 8)).setPc (s.mem.readWord (popAddr s).toNat)) ∨
    (s.cfg.memSize < (popAddr s).toNat + 8 ∧ t = s.setStatus .invalidAddress) := by
  rcases pop_cases s with ⟨hb, e⟩ | ⟨hb, e⟩
  · exact .inl ⟨hb, by simpa [exec, execRet, e] using h.symm⟩
  · exact .inr ⟨hb, by simpa [exec, execRet, e] using h.symm⟩

theorem exec_pushq_next {rA fill : RegSpec} {s t : State} (h : exec (.pushq rA fill) s = .next t) :
    (∃ a, rA = some a ∧ (pushAddr s).toNat + 8 ≤ s.cfg.memSize ∧
      t = ((s.setMem (s.mem.writeWord (pushAddr s).toNat (pushValue s a))).setReg .rsp (pushAddr s)).setPc
        (s.valP .R)) ∨
    (∃ a, rA = some a ∧ s.cfg.memSize < (pushAddr s).toNat + 8 ∧ t = s.setStatus .invalidAddress) ∨
    (rA = none ∧ t = s.setStatus .invalidInstruction) := by
  rcases withReg_next h with ⟨a, ha, h⟩ | h
  · rcases push_cases s (pushValue s a) with ⟨hb, e⟩ | ⟨hb, e⟩
    · exact .inl ⟨a, ha, hb, by simpa [e] using h.symm⟩
    · exact .inr (.inl ⟨a, ha, hb, by simpa [e] using h.symm⟩)
  · exact .inr (.inr h)

theorem exec_popq_next {rA fill : RegSpec} {s t : State} (h : exec (.popq rA fill) s = .next t) :
    (∃ a, rA = some a ∧ (popAddr s).toNat + 8 ≤ s.cfg.memSize ∧
      t = (popInto (s.setReg .rsp (s.reg .rsp + 8)) a (s.mem.readWord (popAddr s).toNat)).setPc (s.valP .R)) ∨
    (∃ a, rA = some a ∧ s.cfg.memSize < (popAddr s).toNat + 8 ∧ t = s.setStatus .invalidAddress) ∨
    (rA = none ∧ t = s.setStatus .invalidInstruction) := by
  rcases withReg_next h with ⟨a, ha, h⟩ | h
  · rcases pop_cases s with ⟨hb, e⟩ | ⟨hb, e⟩
    · exact .inl ⟨a, ha, hb, by simpa [e] using h.symm⟩
    · exact .inr (.inl ⟨a, ha, hb, by simpa [e] using h.symm⟩)
  · exact .inr (.inr h)

/-! ## Where the instructions with a data access complete -/

theorem exec_rmmovq_ok {a b : Reg} {d : Word} {s : State} (h : (effAddr s b d).toNat + 8 ≤ s.cfg.memSize) :
    exec (.rmmovq (some a) (some b) d) s =
      .next ((s.setMem (s.mem.writeWord (effAddr s b d).toNat (s.reg a))).setPc (s.valP .I)) := by
  simp [exec, execRmmovq, memWrite_ok h]

theorem exec_mrmovq_ok {a b : Reg} {d : Word} {s : State} (h : (effAddr s b d).toNat + 8 ≤ s.cfg.memSize) :
    exec (.mrmovq (some a) (some b) d) s =
      .next ((s.setReg a (s.mem.readWord (effAddr s b d).toNat)).setPc (s.valP .I)) := by
  simp [exec, execMrmovq, memRead_ok h]

theorem exec_call_ok {dest : Word} {s : State} (h : (pushAddr s).toNat + 8 ≤ s.cfg.memSize) :
    exec (.call dest) s =
      .next (((s.setMem (s.mem.writeWord (pushAddr s).toNat (s.valP .D))).setReg .rsp (pushAddr s)).setPc dest) := by
  simp [exec, execCall, push, memWrite_ok h]

theorem exec_ret_ok {s : State} (h : (popAddr s).toNat + 8 ≤ s.cfg.memSize) :
    exec .ret s =
      .next ((s.setReg .rsp (s.reg .rsp + 8)).setPc (s.mem.readWord (popAddr s).toNat)) := by
  simp [exec, execRet, pop, memRead_ok h]

theorem exec_pushq_ok {a : Reg} {fill : RegSpec} {s : State} (h : (pushAddr s).toNat + 8 ≤ s.cfg.memSize) :
    exec (.pushq (some a) fill) s =
      .next (((s.setMem (s.mem.writeWord (pushAddr s).toNat (pushValue s a))).setReg .rsp (pushAddr s)).setPc
        (s.valP .R)) := by
  simp [exec, execPushq, push, memWrite_ok h]

theorem exec_popq_ok {a : Reg} {fill : RegSpec} {s : State} (h : (popAddr s).toNat + 8 ≤ s.cfg.memSize) :
    exec (.popq (some a) fill) s =
      .next ((popInto (s.setReg .rsp (s.reg .rsp + 8)) a (s.mem.readWord (popAddr s).toNat)).setPc (s.valP .R)) := by
  simp [exec, execPopq, pop, memRead_ok h]

/-- What executing an instruction can do to status and parameters: it raises an exception and does nothing else, it is
`halt`, or both stay as they were. -/
theorem exec_status {i : Instr} {s t : State} (h : exec i s = .next t) :
    (∃ e : Exc, t = s.setStatus e.status) ∨ (i = .halt ∧ t = s.setStatus .halted) ∨
      (t.status = s.status ∧ t.cfg = s.cfg) := by
  have hmove : ∀ {c rA rB}, condMove c rA rB s = .next t →
      (∃ e : Exc, t = s.setStatus e.status) ∨ (t.status = s.status ∧ t.cfg = s.cfg) := by
    intro c rA rB h
    rcases condMove_next h with ⟨_, _, _, _, _, rfl⟩ | ⟨_, _, _, _, _, rfl⟩ | ⟨_, rfl⟩
    · exact .inr ⟨rfl, rfl⟩
    · exact .inr ⟨rfl, rfl⟩
    · exact .inl ⟨.invalidInstruction, rfl⟩
  have halu : ∀ {fn rA rB}, aluOp fn rA rB s = .next t →
      (∃ e : Exc, t = s.setStatus e.status) ∨ (t.status = s.status ∧ t.cfg = s.cfg) := by
    intro fn rA rB h
    rcases aluOp_next h with ⟨_, _, _, _, rfl⟩ | ⟨_, rfl⟩
    · exact .inr ⟨rfl, rfl⟩
    · exact .inl ⟨.invalidInstruction, rfl⟩
  have hjump : ∀ {c dest}, jump c dest s = .next t → t.status = s.status ∧ t.cfg = s.cfg := by
    intro c dest h
    obtain rfl := jump_next h
    exact ⟨rfl, rfl⟩
  cases i with
  | halt => exact .inr (.inl ⟨rfl, (Host.Outcome.next.inj h).symm⟩)
  | nop =>
    obtain rfl := Host.Outcome.next.inj h
    exact .inr (.inr ⟨rfl, rfl⟩)
  | rrmovq => exact (hmove (c := .always) h).imp_right .inr
  | cmovle => exact (hmove (c := .le) h).imp_right .inr
  | cmovl => exact (hmove (c := .l) h).imp_right .inr
  | cmove => exact (hmove (c := .e) h).imp_right .inr
  | cmovne => exact (hmove (c := .ne) h).imp_right .inr
  | cmovge => exact (hmove (c := .ge) h).imp_right .inr
  | cmovg => exact (hmove (c := .g) h).imp_right .inr
  | irmovq =>
    rcases exec_irmovq_next h with ⟨_, _, rfl⟩ | ⟨_, rfl⟩
    · exact .inr (.inr ⟨rfl, rfl⟩)
    · exact .inl ⟨.invalidInstruction, rfl⟩
  | rmmovq =>
    rcases exec_rmmovq_next h with ⟨_, _, _, _, _, rfl⟩ | ⟨_, _, _, _, _, rfl⟩ | ⟨_, rfl⟩
    · exact .inr (.inr ⟨rfl, rfl⟩)
    · exact .inl ⟨.invalidAddress, rfl⟩
    · exact .inl ⟨.invalidInstruction, rfl⟩
  | mrmovq =>
    rcases exec_mrmovq_next h with ⟨_, _, _, _, _, rfl⟩ | ⟨_, _, _, _, _, rfl⟩ | ⟨_, rfl⟩
    · exact .inr (.inr ⟨rfl, rfl⟩)
    · exact .inl ⟨.invalidAddress, rfl⟩
    · exact .inl ⟨.invalidInstruction, rfl⟩
  | addq => exact (halu (fn := .add) h).imp_right .inr
  | subq => exact (halu (fn := .sub) h).imp_right .inr
  | andq => exact (halu (fn := .and) h).imp_right .inr
  | xorq => exact (halu (fn := .xor) h).imp_right .inr
  | jmp => exact .inr (.inr (hjump (c := .always) h))
  | jle => exact .inr (.inr (hjump (c := .le) h))
  | jl => exact .inr (.inr (hjump (c := .l) h))
  | je => exact .inr (.inr (hjump (c := .e) h))
  | jne => exact .inr (.inr (hjump (c := .ne) h))
  | jge => exact .inr (.inr (hjump (c := .ge) h))
  | jg => exact .inr (.inr (hjump (c := .g) h))
  | call =>
    rcases exec_call_next h with ⟨_, rfl⟩ | ⟨_, rfl⟩
    · exact .inr (.inr ⟨rfl, rfl⟩)
    · exact .inl ⟨.invalidAddress, rfl⟩
  | ret =>
    rcases exec_ret_next h with ⟨_, rfl⟩ | ⟨_, rfl⟩
    · exact .inr (.inr ⟨rfl, rfl⟩)
    · exact .inl ⟨.invalidAddress, rfl⟩
  | pushq =>
    rcases exec_pushq_next h with ⟨_, _, _, rfl⟩ | ⟨_, _, _, rfl⟩ | ⟨_, rfl⟩
    · exact .inr (.inr ⟨rfl, rfl⟩)
    · exact .inl ⟨.invalidAddress, rfl⟩
    · exact .inl ⟨.invalidInstruction, rfl⟩
  | popq =>
    rcases exec_popq_next h with ⟨_, _, _, rfl⟩ | ⟨_, _, _, rfl⟩ | ⟨_, rfl⟩
    · exact .inr (.inr (by simp))
    · exact .inl ⟨.invalidAddress, rfl⟩
    · exact .inl ⟨.invalidInstruction, rfl⟩

end Sys2Proof.Machine
end

