-- ==== Sys2Proof/Laws/PerInstr.lean ====
section
/-! SUPPORT. Lemmas made per instruction. `EncodeLength`: an encoding has the length of its format (R55). -/

namespace Sys2Proof.Laws.EncodeLength

def Statement (i : Instr) : Prop := (encode i).length = i.length

theorem halt : Statement .halt := rfl
theorem nop : Statement .nop := rfl
theorem rrmovq (rA rB : RegSpec) : Statement (.rrmovq rA rB) := rfl
theorem cmovle (rA rB : RegSpec) : Statement (.cmovle rA rB) := rfl
theorem cmovl (rA rB : RegSpec) : Statement (.cmovl rA rB) := rfl
theorem cmove (rA rB : RegSpec) : Statement (.cmove rA rB) := rfl
theorem cmovne (rA rB : RegSpec) : Statement (.cmovne rA rB) := rfl
theorem cmovge (rA rB : RegSpec) : Statement (.cmovge rA rB) := rfl
theorem cmovg (rA rB : RegSpec) : Statement (.cmovg rA rB) := rfl
theorem irmovq (fill rB : RegSpec) (v : Word) : Statement (.irmovq fill rB v) := rfl
theorem rmmovq (rA rB : RegSpec) (d : Word) : Statement (.rmmovq rA rB d) := rfl
theorem mrmovq (rA rB : RegSpec) (d : Word) : Statement (.mrmovq rA rB d) := rfl
theorem addq (rA rB : RegSpec) : Statement (.addq rA rB) := rfl
theorem subq (rA rB : RegSpec) : Statement (.subq rA rB) := rfl
theorem andq (rA rB : RegSpec) : Statement (.andq rA rB) := rfl
theorem xorq (rA rB : RegSpec) : Statement (.xorq rA rB) := rfl
theorem jmp (dest : Word) : Statement (.jmp dest) := rfl
theorem jle (dest : Word) : Statement (.jle dest) := rfl
theorem jl (dest : Word) : Statement (.jl dest) := rfl
theorem je (dest : Word) : Statement (.je dest) := rfl
theorem jne (dest : Word) : Statement (.jne dest) := rfl
theorem jge (dest : Word) : Statement (.jge dest) := rfl
theorem jg (dest : Word) : Statement (.jg dest) := rfl
theorem call (dest : Word) : Statement (.call dest) := rfl
theorem ret : Statement .ret := rfl
theorem pushq (rA fill : RegSpec) : Statement (.pushq rA fill) := rfl
theorem popq (rA fill : RegSpec) : Statement (.popq rA fill) := rfl

end Sys2Proof.Laws.EncodeLength
end

