-- ==== Sys2Proof/Laws/Rows.lean ====
section
/-! SUPPORT. What an instruction of opcode 2 or 7 answers, by its row of the condition table, and the unrolling of the
run loop. -/

namespace Sys2Proof.Machine

/-! ## The rows of the condition table -/

theorem exec_of_jumpRows {p : CondFn × (Word → Instr)} (hp : p ∈ jumpRows) (dest : Word) (s : State) :
    exec (p.2 dest) s = .next (s.setPc (if condHolds p.1 s.flags then dest else s.valP .D)) := by
  simp only [jumpRows, List.mem_cons, List.not_mem_nil, or_false] at hp
  rcases hp with rfl | rfl | rfl | rfl | rfl | rfl | rfl <;> rfl

theorem exec_of_moveRows {p : CondFn × (RegSpec → RegSpec → Instr)} (hp : p ∈ moveRows) (a b : Reg) (s : State) :
    exec (p.2 (some a) (some b)) s =
      .next ((if condHolds p.1 s.flags then s.setReg b (s.reg a) else s).setPc (s.valP .R)) := by
  simp only [moveRows, List.mem_cons, List.not_mem_nil, or_false] at hp
  rcases hp with rfl | rfl | rfl | rfl | rfl | rfl | rfl <;> rfl

/-! ## The run loop -/

@[simp] theorem runFrom_zero (n : Nat) (s : State) : runFrom 0 n s = .next ⟨s, n⟩ := rfl

theorem runFrom_terminal {s : State} (h : s.status ≠ .running) (budget n : Nat) :
    runFrom budget n s = .next ⟨s, n⟩ := by
  cases budget with
  | zero => rfl
  | succ budget => simp [runFrom, h]

theorem runFrom_running {s t : State} (h : s.status = .running) (hs : step s = .next t) (budget n : Nat) :
    runFrom (budget + 1) n s = runFrom budget (n + 1) t := by
  simp [runFrom, h, hs]

end Sys2Proof.Machine
end

