-- ==== Sys2Proof/Tests/Slice0.lean ====
section
/-! SUPPORT. Tests of single steps, and a witness for the hypotheses of every statement that has some. Expected results
come from `spec/`: "A1", "K7" and the like name rows of `spec/95_test_vectors.md`, "R58" its rules; where no row is
named the values were worked out by hand from the rule cited. -/

namespace Sys2Proof.Tests

open Sys2Proof.Machine

/-! ## Helpers -/

/-- A running machine with `N = 5000` and the spec's defaults: some registers, flags `OF SF ZF`, `pc`, and runs of bytes
in memory. -/
def st (regs : List (Reg × Word)) (f : Bool × Bool × Bool) (pc : Word) (mem : List (Nat × List Byte)) : State :=
  (regs.foldl (fun s r => s.setReg r.1 r.2)
    (mem.foldl (fun s m => s.setMem (s.mem.writeBytes m.1 m.2)) State.reset)).setFlags ⟨f.1, f.2.1, f.2.2⟩ |>.setPc pc

/-- Flags all clear, as after Reset. -/
def f000 : Bool × Bool × Bool := (false, false, false)

/-- The machine with other settings of the open readings. -/
def withCfg (c : Config) (s : State) : State := { s with cfg := c }

/-- The outcome is a next state of which `p` holds. -/
def answers (o : Result) (p : State → Bool) : Bool :=
  match o with
  | .next t => p t
  | .fault _ => false
  | .refused _ => false

/-! ## WellFormed: an ill-formed term for each check (R60) -/

theorem test_wellFormed_refuses_rA :
    (Instr.rrmovq none (some .rax)).wellFormed = false ∧ (Instr.cmovle none (some .rax)).wellFormed = false ∧
    (Instr.rmmovq none (some .rax) 0).wellFormed = false ∧ (Instr.mrmovq none (some .rax) 0).wellFormed = false ∧
    (Instr.addq none (some .rax)).wellFormed = false ∧ (Instr.pushq none none).wellFormed = false ∧
    (Instr.popq none none).wellFormed = false := by decide

theorem test_wellFormed_refuses_rB :
    (Instr.rrmovq (some .rax) none).wellFormed = false ∧ (Instr.cmovg (some .rax) none).wellFormed = false ∧
    (Instr.irmovq (some .rax) none 0).wellFormed = false ∧ (Instr.rmmovq (some .rax) none 0).wellFormed = false ∧
    (Instr.mrmovq (some .rax) none 0).wellFormed = false ∧ (Instr.xorq (some .rax) none).wellFormed = false := by
  decide

theorem test_wellFormed_ignores_fill :
    (Instr.irmovq none (some .rax) 0).wellFormed = true ∧ (Instr.pushq (some .rax) none).wellFormed = true ∧
    (Instr.popq (some .rax) (some .rbx)).wellFormed = true := by decide

/-! ## Decoding: every constructor, by a word written out from R51 to R58 -/

/-- 0001 0000, 0000 0000, 1001 0000: `halt`, `nop`, `ret`. -/
theorem test_decode_O : decode [0b00000000] = .ok .halt [] ∧ decode [0b00010000] = .ok .nop [] ∧
    decode [0b10010000] = .ok .ret [] := by decide

/-- Opcode 2: `0010 ffff`, then `AAAA BBBB` with A = 3 (`%rbx`), B = 0 (`%rax`). -/
theorem test_decode_moves :
    decode [0b00100000, 0b00110000] = .ok (.rrmovq (some .rbx) (some .rax)) [] ∧
    decode [0b00100001, 0b00110000] = .ok (.cmovle (some .rbx) (some .rax)) [] ∧
    decode [0b00100010, 0b00110000] = .ok (.cmovl (some .rbx) (some .rax)) [] ∧
    decode [0b00100011, 0b00110000] = .ok (.cmove (some .rbx) (some .rax)) [] ∧
    decode [0b00100100, 0b00110000] = .ok (.cmovne (some .rbx) (some .rax)) [] ∧
    decode [0b00100101, 0b00110000] = .ok (.cmovge (some .rbx) (some .rax)) [] ∧
    decode [0b00100110, 0b00110000] = .ok (.cmovg (some .rbx) (some .rax)) [] := by decide

/-- M9, L1, L2: opcodes 3, 4, 5 with a little-endian constant in bytes 2 to 9. -/
theorem test_decode_I :
    decode [0x30, 0xFE, 0x88, 0x77, 0x66, 0x55, 0x44, 0x33, 0x22, 0x11] =
      .ok (.irmovq none (some .r14) 0x1122334455667788) [] ∧
    decode [0x40, 0x03, 0x08, 0, 0, 0, 0, 0, 0, 0] = .ok (.rmmovq (some .rax) (some .rbx) 8) [] ∧
    decode [0x50, 0x13, 0xF8, 0xFF, 0xFF, 0xFF, 0xFF, 0xFF, 0xFF, 0xFF] =
      .ok (.mrmovq (some .rcx) (some .rbx) 0xFFFFFFFFFFFFFFF8) [] := by decide

/-- Opcode 6, register byte 0x1E: A = 1 (`%rcx`), B = 14 (`%r14`). -/
theorem test_decode_alu :
    decode [0x60, 0x1E] = .ok (.addq (some .rcx) (some .r14)) [] ∧
    decode [0x61, 0x1E] = .ok (.subq (some .rcx) (some .r14)) [] ∧
    decode [0x62, 0x1E] = .ok (.andq (some .rcx) (some .r14)) [] ∧
    decode [0x63, 0x1E] = .ok (.xorq (some .rcx) (some .r14)) [] := by decide

/-- Opcodes 7 and 8: target 0x0102 in bytes 1 to 8, no register byte (C1). -/
theorem test_decode_D :
    decode [0x70, 2, 1, 0, 0, 0, 0, 0, 0] = .ok (.jmp 0x102) [] ∧
    decode [0x71, 2, 1, 0, 0, 0, 0, 0, 0] = .ok (.jle 0x102) [] ∧
    decode [0x72, 2, 1, 0, 0, 0, 0, 0, 0] = .ok (.jl 0x102) [] ∧
    decode [0x73, 2, 1, 0, 0, 0, 0, 0, 0] = .ok (.je 0x102) [] ∧
    decode [0x74, 2, 1, 0, 0, 0, 0, 0, 0] = .ok (.jne 0x102) [] ∧
    decode [0x75, 2, 1, 0, 0, 0, 0, 0, 0] = .ok (.jge 0x102) [] ∧
    decode [0x76, 2, 1, 0, 0, 0, 0, 0, 0] = .ok (.jg 0x102) [] ∧
    decode [0x80, 2, 1, 0, 0, 0, 0, 0, 0x80] = .ok (.call 0x8000000000000102) [] := by decide

/-- K6, K9, P3: opcodes 0xA and 0xB, the low nibble kept though ignored (R61). -/
theorem test_decode_stack :
    decode [0xA0, 0x7F] = .ok (.pushq (some .rdi) none) [] ∧
    decode [0xA0, 0x70] = .ok (.pushq (some .rdi) (some .rax)) [] ∧
    decode [0xB0, 0x2F, 0x90] = .ok (.popq (some .rdx) none) [0x90] := by decide

/-- H7: illegal bytes, whatever follows; a missing byte is another rejection. -/
theorem test_decode_rejects :
    ([0x01, 0x11, 0x27, 0x2F, 0x31, 0x41, 0x51, 0x64, 0x6F, 0x77, 0x7F, 0x81, 0x91, 0xA1, 0xB1, 0xC0, 0xD0, 0xE0,
      0xF0, 0xFF] : List Byte).all (fun b => decode [b, 0, 0] = .rejected .invalidOp) = true ∧
    decode [] = .rejected .truncated ∧ decode [0x20] = .rejected .truncated ∧
    decode [0x70, 0, 0, 0, 0, 0, 0, 0] = .rejected .truncated ∧
    decode [0x30, 0xF0, 0, 0, 0, 0, 0, 0, 0] = .rejected .truncated := by decide

/-- `encode` gives the document's S4 instruction the bytes of R98's example. -/
theorem test_encode_irmovq :
    encode (.irmovq none (some .rax) 5) = [0x30, 0xF0, 0x05, 0, 0, 0, 0, 0, 0, 0] := by decide

/-- A table word numbers the second byte in bits 15..8; operand bits above it are zero. -/
theorem test_decodeTableWord :
    decodeTableWord 8 0x00 = some .halt ∧ decodeTableWord 16 0x3061 = some (.subq (some .rbx) (some .rax)) ∧
    decodeTableWord 8 0x30 = some (.irmovq (some .rax) (some .rax) 0) ∧ decodeTableWord 8 0xC0 = none := by decide

/-- The next step after Reset runs a placed word: `nop`, and `pushq %rax` with no stack (K7). -/
theorem test_withFetchWord :
    answers (step (State.reset.withFetchWord 8 0x10)) (fun t => t.pc == 1) = true ∧
    answers (step (State.reset.withFetchWord 16 0x0FA0))
      (fun t => t.status == .invalidAddress && t.reg .rsp == 0 && t.pc == 0) = true := by decide

/-! ## The condition table (2.2) and the ALU functions (2.1) -/

/-- Table 2.2, flags `OF SF ZF`, columns always le l e ne ge g. -/
theorem test_condition_table :
    let row := fun (o s z : Bool) => [CondFn.always, .le, .l, .e, .ne, .ge, .g].map (condHolds · ⟨o, s, z⟩)
    row false false false = [true, false, false, false, true, true, true] ∧
    row false false true = [true, true, false, true, false, true, false] ∧
    row false true false = [true, true, true, false, true, false, false] ∧
    row false true true = [true, true, true, true, false, true, false] ∧
    row true false false = [true, true, true, false, true, false, false] ∧
    row true false true = [true, true, true, true, false, true, false] ∧
    row true true false = [true, false, false, false, true, true, true] ∧
    row true true true = [true, true, false, true, false, true, false] := by decide

/-- A2, A3, A4, A9: result and flags of additions `p + q`. -/
theorem test_add_vectors :
    let go := fun (q p : Word) => ((aluResult .add q p).1, aluFlags .add q p)
    go 0x4000000000000000 0x4000000000000000 = (0x8000000000000000, ⟨true, true, false⟩) ∧
    go 0x8000000000000000 0x8000000000000000 = (0, ⟨true, false, true⟩) ∧
    go 1 0xFFFFFFFFFFFFFFFF = (0, ⟨false, false, true⟩) ∧
    go 0xFFFFFFFFFFFFFFFF 0x8000000000000000 = (0x7FFFFFFFFFFFFFFF, ⟨true, false, false⟩) := by decide

/-- A10, A13, A15, A16, A17, A20: subtractions `p - q`, the corner `q = 2^63` among them. -/
theorem test_sub_vectors :
    let go := fun (q p : Word) => ((aluResult .sub q p).1, aluFlags .sub q p)
    go 0xA 0x5 = (0xFFFFFFFFFFFFFFFB, ⟨false, true, false⟩) ∧
    go 1 0x8000000000000000 = (0x7FFFFFFFFFFFFFFF, ⟨true, false, false⟩) ∧
    go 0x8000000000000000 0 = (0x8000000000000000, ⟨false, true, false⟩) ∧
    go 0x8000000000000000 0xFFFFFFFFFFFFFFFF = (0x7FFFFFFFFFFFFFFF, ⟨true, false, false⟩) ∧
    go 0x8000000000000000 0x8000000000000000 = (0, ⟨true, false, true⟩) ∧
    go 0 0x8000000000000000 = (0x8000000000000000, ⟨false, true, false⟩) := by decide

/-! ## Single steps -/

/-- H1. -/
theorem test_nop : answers (step (st [] f000 0 [(0, [0x10])])) (fun t => t == st [] f000 1 [(0, [0x10])]) = true := by
  decide

/-- H2: the last byte of memory may hold a `halt`. -/
theorem test_halt_last_byte :
    answers (step (st [] f000 4999 [])) (fun t => t.status == .halted && t.pc == 4999) = true := by decide

/-- M1. -/
theorem test_rrmovq :
    answers (step (st [(.rax, 0x1111), (.rbx, 0x2222)] f000 0 [(0, [0x20, 0x03])]))
      (fun t => t.reg .rbx == 0x1111 && t.reg .rax == 0x1111 && t.pc == 2) = true := by decide

/-- M5, and M2: which conditional moves move after Reset, and `cmovl` with flags 010. -/
theorem test_cmov :
    let moved := fun (b : Byte) (f : Bool × Bool × Bool) =>
      answers (step (st [(.rax, 0x1111), (.rbx, 0x2222)] f 0 [(0, [b, 0x03])]))
        (fun t => t.reg .rbx == 0x1111 && t.pc == 2)
    ([0x21, 0x22, 0x23, 0x24, 0x25, 0x26] : List Byte).map (moved · f000) =
      [false, false, false, true, true, true] ∧
    ([0x21, 0x22, 0x23, 0x24, 0x25, 0x26] : List Byte).map (moved · (true, false, true)) =
      [true, true, true, false, true, false] := by decide

/-- M7: the register check does not depend on the condition. -/
theorem test_cmovle_no_register :
    answers (step (st [] f000 0 [(0, [0x21, 0xF3])])) (fun t => t.status == .invalidInstruction && t.pc == 0) = true := by
  decide

/-- M10: the `rA` nibble of `irmovq` is ignored. -/
theorem test_irmovq :
    answers (step (st [] f000 0 [(0, [0x30, 0x30, 0xFF, 0xFF, 0xFF, 0xFF, 0xFF, 0xFF, 0xFF, 0xFF])]))
      (fun t => t.reg .rax == 0xFFFFFFFFFFFFFFFF && t.reg .rbx == 0 && t.pc == 10) = true := by decide

/-- L4 and L5: the last legal address, and one past it. -/
theorem test_rmmovq :
    answers (step (st [(.rax, 0x1122334455667788), (.rbx, 4992)] f000 0 [(0, [0x40, 0x03])]))
      (fun t => t.mem.readBytes 4992 8 == [0x88, 0x77, 0x66, 0x55, 0x44, 0x33, 0x22, 0x11] && t.pc == 10) = true ∧
    answers (step (st [(.rax, 0x1122334455667788), (.rbx, 4993)] f000 0 [(0, [0x40, 0x03])]))
      (fun t => t.status == .invalidAddress && t.pc == 0 && t.mem == [(0, 0x40), (1, 0x03)]) = true := by decide

/-- L3: unaligned, the address from the old `%rax`. L6: the sum wraps. -/
theorem test_mrmovq :
    answers (step (st [(.rax, 0x203)] f000 0 [(0, [0x50, 0x00]), (0x203, [0xEF, 0xBE, 0xAD, 0xDE])]))
      (fun t => t.reg .rax == 0xDEADBEEF && t.pc == 10) = true ∧
    answers (step (st [(.rbx, 0xFFFFFFFFFFFFFFF8), (.rax, 7)] f000 0 [(0, [0x50, 0x03, 0x10])]))
      (fun t => t.reg .rax == 0 && t.status == .running && t.pc == 10) = true := by decide

/-- S5, S6 and A25, A27 as instructions; the old `OF` is cleared by `andq`. -/
theorem test_alu_instructions :
    answers (step (st [(.rax, 5)] f000 0 [(0, [0x60, 0x00])])) (fun t => t.reg .rax == 0xA && t.pc == 2) = true ∧
    answers (step (st [(.rax, 5), (.rbx, 10)] f000 0 [(0, [0x61, 0x30])]))
      (fun t => t.reg .rax == 0xFFFFFFFFFFFFFFFB && t.reg .rbx == 10 && t.flags == ⟨false, true, false⟩) = true ∧
    answers (step (st [(.rax, 0xF0), (.rcx, 0x0F)] (true, false, false) 0 [(0, [0x62, 0x01])]))
      (fun t => t.reg .rcx == 0 && t.flags == ⟨false, false, true⟩) = true ∧
    answers (step (st [(.rax, 77)] f000 0 [(0, [0x63, 0x00])]))
      (fun t => t.reg .rax == 0 && t.flags == ⟨false, false, true⟩) = true := by decide

/-- J1 to J4: target 0x100. -/
theorem test_jumps :
    let goes := fun (f : Bool × Bool × Bool) (b : Byte) =>
      answers (step (st [] f 0 [(0, [b, 0x00, 0x01])])) (fun t => t.pc == 0x100 && t.flags == ⟨f.1, f.2.1, f.2.2⟩)
    let all : List Byte := [0x70, 0x71, 0x72, 0x73, 0x74, 0x75, 0x76]
    all.map (goes f000) = [true, false, false, false, true, true, true] ∧
    all.map (goes (false, false, true)) = [true, true, false, true, false, true, false] ∧
    all.map (goes (false, true, false)) = [true, true, true, false, true, false, false] ∧
    all.map (goes (true, false, true)) = [true, true, true, true, false, true, false] := by decide

/-- The not-taken jump of J1 goes to 9. -/
theorem test_jump_not_taken :
    answers (step (st [] f000 0 [(0, [0x73, 0x00, 0x01])])) (fun t => t.pc == 9) = true := by decide

/-- K1 and K2. -/
theorem test_call :
    answers (step (st [(.rsp, 0x100)] f000 0 [(0, [0x80, 0x20])]))
      (fun t => t.mem.readBytes 0xF8 8 == [9, 0, 0, 0, 0, 0, 0, 0] && t.reg .rsp == 0xF8 && t.pc == 0x20) = true ∧
    answers (step (st [] f000 0 [(0, [0x80, 0x20])]))
      (fun t => t.status == .invalidAddress && t.reg .rsp == 0 && t.pc == 0) = true := by decide

/-- K3 and K4. -/
theorem test_ret :
    answers (step (st [] f000 0 [(0, [0x90])])) (fun t => t.pc == 0x90 && t.reg .rsp == 8) = true ∧
    answers (step (st [(.rsp, 4992)] f000 0 [(0, [0x90]), (4992, [0x40])]))
      (fun t => t.pc == 0x40 && t.reg .rsp == 5000) = true := by decide

/-- K6, and K10 under both settings. -/
theorem test_pushq :
    answers (step (st [(.rsp, 8), (.rdi, 0xAB)] f000 0 [(0, [0xA0, 0x7F])]))
      (fun t => t.mem == [(0, 0xAB)] && t.reg .rsp == 0 && t.pc == 2) = true ∧
    answers (step (st [(.rsp, 0x100)] f000 0 [(0, [0xA0, 0x4F])]))
      (fun t => t.mem.readWord 0xF8 == 0x100 && t.reg .rsp == 0xF8) = true ∧
    answers (step (withCfg ⟨5000, .new, .loaded⟩ (st [(.rsp, 0x100)] f000 0 [(0, [0xA0, 0x4F])])))
      (fun t => t.mem.readWord 0xF8 == 0xF8 && t.reg .rsp == 0xF8) = true := by decide

/-- K11, and K12 under the three settings. -/
theorem test_popq :
    let sp := fun (r : PopqSp) =>
      match step (withCfg ⟨5000, .old, r⟩ (st [(.rsp, 0x100)] f000 0 [(0, [0xB0, 0x4F]), (0x100, [0x00, 0x03])])) with
      | .next t => some (t.reg .rsp)
      | .fault _ => none
      | .refused _ => none
    answers (step (st [] f000 0 [(0, [0xB0, 0x0F])])) (fun t => t.reg .rax == 0x0FB0 && t.reg .rsp == 8) = true ∧
    sp .loaded = some 0x300 ∧ sp .loadedPlus8 = some 0x308 ∧ sp .oldPlus8 = some 0x108 := by decide

/-- H9: Load of nothing after Reset, then Run; and P6: two steps to InvalidInstruction at `pc = 1`. -/
theorem test_run :
    run 1000 State.reset = .next ⟨State.reset.setStatus .halted, 1⟩ ∧
    run 2 (st [] f000 0 [(0, [0x10, 0xC0])]) =
      .next ⟨(st [] f000 1 [(0, [0x10, 0xC0])]).setStatus .invalidInstruction, 2⟩ := ⟨rfl, rfl⟩

/-! ## Witnesses: a state and operands that meet all the hypotheses of a statement, for each of its clauses

Rows of `spec/95_test_vectors.md` give most of the states. -/

/-- A running state at `pc = 0` whose next bytes are `bs`. -/
def at0 (bs : List Byte) : State := st [] f000 0 [(0, bs)]

/-- `rmmovq %rax, (%rbx)` with the last legal address (L4), and one past it (L5). -/
def storeAt (addr : Word) : State := st [(.rax, 0x1122334455667788), (.rbx, addr)] f000 0 [(0, [0x40, 0x03])]

/-- The two ends of the range of `N`. -/
theorem test_witness_ResetMeetsTheInvariant :
    Config.reference.Ok ∧ (⟨1000, .new, .oldPlus8⟩ : Config).Ok ∧ (⟨2 ^ 63, .old, .loadedPlus8⟩ : Config).Ok ∧
    ¬ (⟨999, .old, .loaded⟩ : Config).Ok ∧ ¬ (⟨2 ^ 63 + 1, .old, .loaded⟩ : Config).Ok := by decide

theorem test_witness_ResetIsAllZeroAndRunning : (⟨1000, .new, .oldPlus8⟩ : Config).Ok := by decide

theorem test_witness_StepKeepsTheInvariant :
    (storeAt 4992).Inv ∧ ∃ t, step (storeAt 4992) = .next t ∧ t.mem ≠ (storeAt 4992).mem :=
  ⟨by decide, _, rfl, by decide⟩

theorem test_witness_RunKeepsTheInvariant :
    (storeAt 4992).Inv ∧ ∃ r, run 2 (storeAt 4992) = .next r ∧ r.state.status = .halted :=
  ⟨by decide, _, rfl, by decide⟩

theorem test_witness_DecodedBytesAreTheEncoding :
    decode [0x50, 0x4F, 1, 2, 3, 4, 5, 6, 7, 0xFF, 0x00] = .ok (.mrmovq (some .rsp) none 0xFF07060504030201) [0x00] := by
  decide

/-- A recognised byte 0 with all of its bytes and with one too few; the last function code of a family and the next. -/
theorem test_witness_DecoderAcceptsExactlyValidOpcodes :
    (validOp (hiNibble 0x76) (loNibble 0x76) = true ∧ formatOf (hiNibble 0x76) = some .D ∧
      Format.D.length ≤ [0, 0, 0, 0, 0, 0, 0, (0 : Byte)].length + 1 ∧
      ¬ Format.D.length ≤ [0, 0, 0, 0, 0, 0, (0 : Byte)].length + 1) ∧
    validOp (hiNibble 0x77) (loNibble 0x77) = false := by decide

/-- The last two bytes of memory are an instruction. -/
theorem test_witness_StepRunsTheDecodedInstruction :
    let s := st [] f000 4998 [(4998, [0x60, 0x1E])]
    s.status = .running ∧ s.pc.toNat + 2 ≤ s.cfg.memSize ∧
    decode (s.mem.readBytes s.pc.toNat 2) = .ok (.addq (some .rcx) (some .r14)) [] := by decide

theorem test_witness_PlacedTableWordRuns :
    let s := st [] f000 4990 []
    s.status = .running ∧ s.mem.wf = true ∧ s.pc.toNat + 10 ≤ s.cfg.memSize ∧
    decodeTableWord 16 0x1E60 = some (.addq (some .rcx) (some .r14)) := by decide

theorem test_witness_TerminalStatusIsFinal :
    (State.reset.setStatus .halted).status ≠ .running ∧
    (State.reset.setStatus .invalidAddress).status ≠ .running := by decide

/-- A terminal state; a fetch that raises (H7); `halt`; an instruction that stays Running and one that raises (K7). -/
theorem test_witness_StatusTransitions :
    (∃ t, step (State.reset.setStatus .halted) = .next t) ∧
    (fetch (at0 [0xC0]) = .error .invalidInstruction ∧ ∃ t, step (at0 [0xC0]) = .next t) ∧
    (fetch State.reset = .ok .halt ∧ ∃ t, step State.reset = .next t) ∧
    (fetch (at0 [0x10]) = .ok .nop ∧ ∃ t, step (at0 [0x10]) = .next t) ∧
    (fetch (at0 [0xA0, 0x0F]) = .ok (.pushq (some .rax) none) ∧ ∃ t, step (at0 [0xA0, 0x0F]) = .next t) :=
  ⟨⟨_, rfl⟩, ⟨rfl, _, rfl⟩, ⟨rfl, _, rfl⟩, ⟨rfl, _, rfl⟩, ⟨rfl, _, rfl⟩⟩

/-- K7 and H7. -/
theorem test_witness_FaultingStepChangesOnlyStatus :
    (∃ t, step (at0 [0xA0, 0x0F]) = .next t ∧ t.status = .invalidAddress) ∧
    (∃ t, step (at0 [0xC0]) = .next t ∧ t.status = .invalidInstruction) :=
  ⟨⟨_, rfl, by decide⟩, ⟨_, rfl, by decide⟩⟩

/-- The step ends in InvalidAddress. -/
def endsInvalidAddress (s : State) : Prop :=
  s.status = .running ∧ ∃ t, step s = .next t ∧ t.status = .invalidAddress

/-- Each cause at the first address that fails: byte 0 (H3), the rest (H4), the store and load (L5), the push of
`pushq` and `call` (K7, K2), the pop of `popq` and `ret`. -/
theorem test_witness_CausesOfInvalidAddress :
    endsInvalidAddress (st [] f000 5000 []) ∧ endsInvalidAddress (st [] f000 4999 [(4999, [0x20])]) ∧
    endsInvalidAddress (storeAt 4993) ∧ endsInvalidAddress (st [(.rbx, 4993)] f000 0 [(0, [0x50, 0x03])]) ∧
    endsInvalidAddress (st [(.rsp, 5001)] f000 0 [(0, [0xA0, 0x0F])]) ∧
    endsInvalidAddress (st [] f000 0 [(0, [0x80])]) ∧
    endsInvalidAddress (st [(.rsp, 4993)] f000 0 [(0, [0xB0, 0x0F])]) ∧
    endsInvalidAddress (st [(.rsp, 4993)] f000 0 [(0, [0x90])]) :=
  ⟨⟨rfl, _, rfl, rfl⟩, ⟨rfl, _, rfl, rfl⟩, ⟨rfl, _, rfl, rfl⟩, ⟨rfl, _, rfl, rfl⟩,
   ⟨rfl, _, rfl, rfl⟩, ⟨rfl, _, rfl, rfl⟩, ⟨rfl, _, rfl, rfl⟩, ⟨rfl, _, rfl, rfl⟩⟩

/-- The hypotheses of the clauses in their order, each at a boundary: `pc = N` (H3); an illegal last byte (H5); a
two-byte instruction whose second byte would lie at `N`, and at `N - 1`; the latter with a missing register; an access
one past the last legal address (L5) and at it (L4). -/
theorem test_witness_OrderOfChecks :
    (let s := st [] f000 5000 [];
      s.status = .running ∧ s.cfg.memSize ≤ s.pc.toNat) ∧
    (let s := st [] f000 4999 [(4999, [0xC0])];
      s.pc.toNat < s.cfg.memSize ∧ validOp (hiNibble (s.mem.read s.pc.toNat)) (loNibble (s.mem.read s.pc.toNat)) = false) ∧
    (let s := st [] f000 4999 [(4999, [0x20])];
      s.pc.toNat < s.cfg.memSize ∧ validOp (hiNibble (s.mem.read s.pc.toNat)) (loNibble (s.mem.read s.pc.toNat)) = true ∧
      formatOf (hiNibble (s.mem.read s.pc.toNat)) = some .R ∧ s.cfg.memSize < s.pc.toNat + Format.R.length) ∧
    (let s := st [] f000 4998 [(4998, [0x20, 0xF0])];
      formatOf (hiNibble (s.mem.read s.pc.toNat)) = some .R ∧ s.pc.toNat + Format.R.length ≤ s.cfg.memSize ∧
      decode (s.mem.readBytes s.pc.toNat Format.R.length) = .ok (.rrmovq none (some .rax)) [] ∧
      (Instr.rrmovq none (some .rax)).wellFormed = false) ∧
    (let i := Instr.rmmovq (some .rax) (some .rbx) 0;
      decode ((storeAt 4993).mem.readBytes 0 Format.I.length) = .ok i [] ∧ i.wellFormed = true ∧
      dataAccess i (storeAt 4993) = some (4993, true) ∧ (storeAt 4993).cfg.memSize < (4993 : Word).toNat + 8 ∧
      dataAccess i (storeAt 4992) = some (4992, true) ∧ (4992 : Word).toNat + 8 ≤ (storeAt 4992).cfg.memSize) := by
  decide

/-- Two memories that differ behind the instruction. -/
theorem test_witness_FetchDependsOnOwnBytesOnly :
    fetch (at0 [0x20, 0x03]) = .ok (.rrmovq (some .rax) (some .rbx)) ∧
    (at0 [0x20, 0x03, 0xC0]).pc = (at0 [0x20, 0x03]).pc ∧ (at0 [0x20, 0x03, 0xC0]).cfg = (at0 [0x20, 0x03]).cfg ∧
    (∀ k : Nat, k < (Instr.rrmovq (some .rax) (some .rbx)).length →
      (at0 [0x20, 0x03, 0xC0]).mem.read ((at0 [0x20, 0x03]).pc.toNat + k) =
        (at0 [0x20, 0x03]).mem.read ((at0 [0x20, 0x03]).pc.toNat + k)) :=
  ⟨rfl, rfl, rfl, by decide⟩

theorem test_witness_ConstantReadsAsData :
    State.reset.cfg.Ok ∧
    fetch (at0 [0x30, 0xF0, 5]) = .ok (.irmovq none (some .rax) 5) ∧
    fetch (at0 [0x40, 0x03, 8]) = .ok (.rmmovq (some .rax) (some .rbx) 8) ∧
    fetch (at0 [0x50, 0x03, 8]) = .ok (.mrmovq (some .rax) (some .rbx) 8) ∧
    fetch (at0 [0x80, 0, 1]) = .ok (.call 0x100) :=
  ⟨by decide, rfl, rfl, rfl, rfl⟩

/-- Each of the seven jumps, at its byte 0. -/
theorem test_witness_ConstantReadsAsData_jumps :
    (jumpRows.zip [0x70, 0x71, 0x72, 0x73, 0x74, 0x75, (0x76 : Byte)]).map
      (fun r => decode (fetchWindow (at0 [r.2, 0, 1]))) = jumpRows.map (fun p => .ok (p.2 0x100) [0]) := by decide

theorem test_witness_MissingRegisterRaises :
    (Instr.cmovle none (some .rbx)).wellFormed = false ∧ (Instr.popq none (some .rax)).wellFormed = false := by decide

/-- The six instructions with a data access, one past the last legal address and at it. -/
theorem test_witness_OutOfBoundsAccessRaises :
    dataAccess (.rmmovq (some .rax) (some .rbx) 1) (storeAt 4992) = some (4993, true) ∧
    dataAccess (.mrmovq (some .rax) (some .rbx) 1) (storeAt 4992) = some (4993, false) ∧
    dataAccess (.pushq (some .rax) none) (st [(.rsp, 5001)] f000 0 []) = some (4993, true) ∧
    dataAccess (.call 0) (st [(.rsp, 5001)] f000 0 []) = some (4993, true) ∧
    dataAccess (.popq (some .rax) none) (st [(.rsp, 4993)] f000 0 []) = some (4993, false) ∧
    dataAccess .ret (st [(.rsp, 4993)] f000 0 []) = some (4993, false) ∧
    (storeAt 4992).cfg.memSize < (4993 : Word).toNat + 8 := by decide

theorem test_witness_EveryInstructionCompletes :
    (Instr.pushq (some .rax) none).wellFormed = true ∧
    (∀ addr w, dataAccess (.pushq (some .rax) none) (st [(.rsp, 5000)] f000 0 []) = some (addr, w) →
      addr.toNat + 8 ≤ (st [(.rsp, 5000)] f000 0 []).cfg.memSize) ∧
    Instr.halt.wellFormed = true ∧ dataAccess .halt State.reset = none :=
  ⟨rfl, fun _ _ h => by cases h; decide, rfl, rfl⟩

theorem test_witness_FlagWritersAndReaders :
    (Instr.jle 8).op ∉ [Op.addq, .subq, .andq, .xorq] ∧ (∃ t, exec (.jle 8) State.reset = .next t) ∧
    (Instr.subq (some .rax) (some .rax)).op ∈ [Op.addq, .subq, .andq, .xorq] ∧
    (Instr.subq (some .rax) (some .rax)).wellFormed = true ∧
    (Instr.jmp 8).op ∉ [Op.addq, .subq, .andq, .xorq, .cmovle, .cmovl, .cmove, .cmovne, .cmovge, .cmovg,
      .jle, .jl, .je, .jne, .jge, .jg] ∧ (∃ t, exec (.jmp 8) State.reset = .next t) :=
  ⟨by decide, ⟨_, rfl⟩, by decide, rfl, by decide, ⟨_, rfl⟩⟩

/-- A jump to another place than the next instruction, a move between registers that differ, and flags under which the
row of both changes. -/
theorem test_witness_FlagWritersAndReaders_readers :
    ((CondFn.le, Instr.jle) ∈ jumpRows ∧ (8 : Word) ≠ State.reset.pc + 9 ∧ ∃ t, exec (.jle 8) State.reset = .next t) ∧
    (let s := st [(.rax, 7)] f000 0 [];
      (CondFn.le, Instr.cmovle) ∈ moveRows ∧ s.reg .rax ≠ s.reg .rbx ∧
      ∃ t, exec (.cmovle (some .rax) (some .rbx)) s = .next t) ∧
    condHolds .le ⟨false, false, true⟩ ≠ condHolds .le State.reset.flags ∧ CondFn.le ≠ .always :=
  ⟨⟨.tail _ (.head _), by decide, _, rfl⟩, ⟨.tail _ (.head _), by decide, _, rfl⟩, by decide, by decide⟩

theorem test_witness_RegisterWriters : ∃ t, exec (.irmovq none (some .rax) 7) State.reset = .next t ∧ t.reg .rax = 7 :=
  ⟨_, rfl, by decide⟩

/-- A store at the last legal address, and a load. -/
theorem test_witness_MemoryWriters :
    ((storeAt 4992).mem.wf = true ∧ dataAccess (.rmmovq (some .rax) (some .rbx) 0) (storeAt 4992) = some (4992, true) ∧
      ∃ t, exec (.rmmovq (some .rax) (some .rbx) 0) (storeAt 4992) = .next t) ∧
    ((∀ addr, dataAccess (.mrmovq (some .rax) (some .rbx) 0) (storeAt 4992) ≠ some (addr, true)) ∧
      ∃ t, exec (.mrmovq (some .rax) (some .rbx) 0) (storeAt 4992) = .next t) :=
  ⟨⟨by decide, by decide, _, rfl⟩, ⟨fun _ h => (by cases h), _, rfl⟩⟩

theorem test_witness_NextProgramCounter :
    State.reset.status = .running ∧
    (∃ t, exec .halt State.reset = .next t ∧ t.status ≠ .running) ∧
    (∃ t, exec (.jg 9) State.reset = .next t ∧ t.status = .running) :=
  ⟨rfl, ⟨_, rfl, by decide⟩, ⟨_, rfl, rfl⟩⟩

theorem test_witness_ParametersNeverChange : ∃ t, step (at0 [0x10]) = .next t := ⟨_, rfl⟩

/-- `pushq %rax` is no `pushq %rsp`. -/
theorem test_witness_OpenReadingsMatterToRspAlone :
    (⟨5000, .new, .oldPlus8⟩ : Config).memSize = State.reset.cfg.memSize ∧
    (∀ x, Instr.pushq (some .rax) none ≠ .pushq (some .rsp) x) ∧
    (∀ x, Instr.pushq (some .rax) none ≠ .popq (some .rsp) x) ∧
    ∃ t, exec (.pushq (some .rax) none) (st [(.rsp, 8)] f000 0 []) = .next t :=
  ⟨rfl, nofun, nofun, _, rfl⟩

/-- The last legal address, and a sum that wraps to 7. -/
theorem test_witness_RmmovqStoresTheRegister :
    (storeAt 4992).mem.wf = true ∧ (effAddr (storeAt 4992) .rbx 0).toNat + 8 ≤ (storeAt 4992).cfg.memSize ∧
    (effAddr (storeAt 0xFFFFFFFFFFFFFFFF) .rbx 8).toNat + 8 ≤ (storeAt 0xFFFFFFFFFFFFFFFF).cfg.memSize := by decide

theorem test_witness_MrmovqLoadsTheWord :
    (effAddr (storeAt 4992) .rbx 0).toNat + 8 ≤ (storeAt 4992).cfg.memSize := by decide

/-- Both clauses where they meet, and at the top of the address space. -/
theorem test_witness_MemReadIsLittleEndian :
    State.reset.cfg.memSize < (4993 : Word).toNat + 8 ∧ (4992 : Word).toNat + 8 ≤ State.reset.cfg.memSize ∧
    State.reset.cfg.memSize < (0xFFFFFFFFFFFFFFFF : Word).toNat + 8 := by decide

theorem test_witness_MemWriteIsLittleEndian :
    State.reset.mem.wf = true ∧ State.reset.cfg.memSize < (4993 : Word).toNat + 8 ∧
    (4992 : Word).toNat + 8 ≤ State.reset.cfg.memSize := by decide

/-- `k` at both ends of its range. -/
theorem test_witness_OverlappingReadSeesTheStore :
    State.reset.Inv ∧ (∃ t, memWrite State.reset 4985 0x1122334455667788 = .ok t) ∧
    (4985 : Word).toNat + 0 + 8 ≤ State.reset.cfg.memSize ∧ (4985 : Word).toNat + 7 + 8 ≤ State.reset.cfg.memSize :=
  ⟨by decide, ⟨_, rfl⟩, by decide, by decide⟩

/-- The store of a word whose low byte is a `nop` over the bytes at offset 10. -/
theorem test_witness_StoredBytesAreFetched :
    let s := st [(.rax, 0x10), (.rbx, 10)] f000 0 [(0, [0x40, 0x03])]
    s.status = .running ∧ s.mem.wf = true ∧ effAddr s .rbx 0 = s.pc + 10 ∧
    (effAddr s .rbx 0).toNat + 8 ≤ s.cfg.memSize ∧
    decode (wordBytes (s.reg .rax)) = .ok .nop [0, 0, 0, 0, 0, 0, 0] := by decide

/-- The subtrahend `2^63` and its neighbours. -/
theorem test_witness_SubOverflowAndItsCorner :
    (0x8000000000000000 : Word).toNat = 2 ^ 63 ∧ (0x7FFFFFFFFFFFFFFF : Word).toNat ≠ 2 ^ 63 ∧
    (0x8000000000000001 : Word).toNat ≠ 2 ^ 63 := by decide

/-- Both ends of both clauses. -/
theorem test_witness_SignedConversionsAreInverse :
    (0x7FFFFFFFFFFFFFFF : Word).toNat < 2 ^ 63 ∧ 2 ^ 63 ≤ (0x8000000000000000 : Word).toNat ∧
    (-(2 ^ 63) ≤ (-(2 ^ 63) : Int) ∧ (-(2 ^ 63) : Int) < 0) ∧ ((0 : Int) ≤ 2 ^ 63 - 1 ∧ (2 ^ 63 - 1 : Int) < 2 ^ 63) := by
  decide

/-- One operand next to the corner. -/
theorem test_witness_ConditionsAfterSubqCompareSigned :
    let s := st [(.rax, 0x8000000000000001), (.rbx, 5)] f000 0 []
    (s.reg .rax).toNat ≠ 2 ^ 63 ∧ ∃ t, exec (.subq (some .rax) (some .rbx)) s = .next t :=
  ⟨by decide, _, rfl⟩

/-- The subtrahend `2^63`, from 0 and from itself. -/
theorem test_witness_ConditionsAfterSubqOfTheMinimum :
    let s := st [(.rax, 0x8000000000000000)] f000 0 []
    (s.reg .rax).toNat = 2 ^ 63 ∧ (s.reg .rbx).toNat ≠ 2 ^ 63 ∧
    (∃ t, exec (.subq (some .rax) (some .rbx)) s = .next t) ∧
    (∃ t, exec (.subq (some .rax) (some .rax)) s = .next t) :=
  ⟨by decide, by decide, ⟨_, rfl⟩, ⟨_, rfl⟩⟩

/-- J5's kind of target, at the first offset outside memory: a taken jump, a `call` and a `ret`. -/
theorem test_witness_TargetOutsideMemoryFaultsNextStep :
    let s := st [(.rsp, 0x100)] f000 0 [(0x100, [0x88, 0x13])]
    s.status = .running ∧ s.cfg.memSize ≤ (5000 : Word).toNat ∧
    (CondFn.ne, Instr.jne) ∈ jumpRows ∧ condHolds .ne s.flags = true ∧
    s.mem.wf = true ∧ (pushAddr s).toNat + 8 ≤ s.cfg.memSize ∧
    (popAddr s).toNat + 8 ≤ s.cfg.memSize ∧ HoldsWord s (popAddr s) 5000 :=
  ⟨rfl, by decide, .tail _ (.tail _ (.tail _ (.tail _ (.head _)))), by decide, by decide, by decide, by decide,
    by unfold HoldsWord; decide⟩

/-- The lowest push, to address 0, and the highest, to 4992. -/
theorem test_witness_CallPushesTheReturnAddress :
    let s := fun (sp : Word) => st [(.rsp, sp)] f000 0 []
    (s 8).mem.wf = true ∧ (pushAddr (s 8)).toNat + 8 ≤ (s 8).cfg.memSize ∧
    (pushAddr (s 5000)).toNat + 8 ≤ (s 5000).cfg.memSize := by decide

theorem test_witness_RetPopsTheProgramCounter :
    let s := st [(.rsp, 4992)] f000 0 []
    (s.reg .rsp).toNat + 8 ≤ s.cfg.memSize := by decide

/-- Each clause: a register other than `%rsp`, and `%rsp` under either setting. -/
theorem test_witness_PushqStoresTheRegister :
    let s := st [(.rsp, 8)] f000 0 []
    let s' := withCfg ⟨5000, .new, .loaded⟩ s
    s.mem.wf = true ∧ (pushAddr s).toNat + 8 ≤ s.cfg.memSize ∧ Reg.rax ≠ .rsp ∧ s.cfg.pushqSp = .old ∧
    s'.mem.wf = true ∧ (pushAddr s').toNat + 8 ≤ s'.cfg.memSize ∧ s'.cfg.pushqSp = .new := by decide

theorem test_witness_PopqLoadsTheRegister :
    let s := st [(.rsp, 4992)] f000 0 []
    (s.reg .rsp).toNat + 8 ≤ s.cfg.memSize ∧ Reg.rax ≠ .rsp := by decide

theorem test_witness_RetUndoesCall :
    let s := st [(.rsp, 0x100)] f000 0 []
    s.Inv ∧ (pushAddr s).toNat + 8 ≤ s.cfg.memSize ∧
    ∃ t u : State, exec (.call 0x20) s = .next t ∧ u.cfg = t.cfg ∧ u.reg .rsp = t.reg .rsp ∧
      (∀ i : Nat, i < 8 → u.mem.read ((t.reg .rsp).toNat + i) = t.mem.read ((t.reg .rsp).toNat + i)) ∧ u.pc ≠ t.pc :=
  ⟨by decide, by decide, _, st [(.rsp, 0xF8)] f000 0x40 [(0xF8, [9])], rfl, rfl, rfl, by decide, by decide⟩

theorem test_witness_PopqUndoesPushq :
    let s := st [(.rsp, 0x100), (.rax, 7)] f000 0 []
    s.Inv ∧ Reg.rax ≠ .rsp ∧ Reg.rbx ≠ .rsp ∧ (pushAddr s).toNat + 8 ≤ s.cfg.memSize ∧
    ∃ t, exec (.pushq (some .rax) none) s = .next t :=
  ⟨by decide, by decide, by decide, by decide, _, rfl⟩

/-- An image that fits, and lengths at the two sides of the bound. -/
theorem test_witness_LoadPlacesTheImage :
    (⟨1000, .old, .loaded⟩ : Config).Ok ∧ [(0x10 : Byte), 0x00].length ≤ 1000 ∧
    (List.replicate 1000 (0x10 : Byte)).length ≤ 1000 ∧ 1000 < (List.replicate 1001 (0x10 : Byte)).length :=
  ⟨by decide, by decide, by rw [List.length_replicate], by rw [List.length_replicate]; decide⟩

/-- The states that `nop` and then `halt` lead through: the path of a run that is out of budget after one step, and
ends with its second, counted, step under a larger budget. -/
def nopPath : Nat → State
  | 0 => at0 [0x10]
  | 1 => (at0 [0x10]).setPc 1
  | _ + 2 => ((at0 [0x10]).setPc 1).setStatus .halted

theorem test_witness_RunEndsByBudgetOrTerminalStatus :
    (∀ k : Nat, step (nopPath k) = .next (nopPath (k + 1))) ∧
    (∃ r, run 1 (nopPath 0) = .next r ∧ r.outOfBudget = true) ∧
    (∃ r, run 5 (nopPath 0) = .next r ∧ r.steps = 2) ∧
    (nopPath 1).status = .running ∧ ∃ r, run 4 (nopPath 2) = .next r :=
  ⟨fun k => match k with
    | 0 => rfl
    | 1 => rfl
    | _ + 2 => rfl, ⟨_, rfl, by decide⟩, ⟨_, rfl, by decide⟩, rfl, _, rfl⟩

theorem test_witness_RunsCompose :
    ∃ r r', run 1 (at0 [0x10]) = .next r ∧ run 3 r.state = .next r' ∧ r'.state.status = .halted :=
  ⟨_, _, rfl, rfl, by decide⟩

end Sys2Proof.Tests
end

/-! SUPPORT. Which instructions write the flags and which read them (`spec/10_state.md` R17). An instruction that does
neither commutes with replacing the flags. -/

namespace Sys2Proof.Machine

/-! ## Replacing the flags before an operation and after it -/

/-- The answer with the flags of its next state replaced. -/
def withFlags (f : Flags) : Result → Result
  | .next t => .next (t.setFlags f)
  | .fault r => .fault r
  | .refused r => .refused r

@[simp] theorem withFlags_next (f : Flags) (t : State) : withFlags f (.next t) = .next (t.setFlags f) := rfl

@[simp] theorem State.setFlags_self (s : State) : s.setFlags s.flags = s := rfl

theorem withReg_setFlags {r : RegSpec} {s : State} {f : Flags} {k k' : Reg → Result}
    (hk : ∀ a, k' a = withFlags f (k a)) : withReg r (s.setFlags f) k' = withFlags f (withReg r s k) := by
  cases r with
  | none => rfl
  | some a => exact hk a

theorem withRegs_setFlags {rA rB : RegSpec} {s : State} {f : Flags} {k k' : Reg → Reg → Result}
    (hk : ∀ a b, k' a b = withFlags f (k a b)) :
    withRegs rA rB (s.setFlags f) k' = withFlags f (withRegs rA rB s k) :=
  withReg_setFlags fun a => withReg_setFlags fun b => hk a b

@[simp] theorem effAddr_setFlags (s : State) (f : Flags) (base : Reg) (disp : Word) :
    effAddr (s.setFlags f) base disp = effAddr s base disp := rfl

@[simp] theorem pushAddr_setFlags (s : State) (f : Flags) : pushAddr (s.setFlags f) = pushAddr s := rfl

@[simp] theorem popAddr_setFlags (s : State) (f : Flags) : popAddr (s.setFlags f) = popAddr s := rfl

@[simp] theorem pushValue_setFlags (s : State) (f : Flags) (a : Reg) :
    pushValue (s.setFlags f) a = pushValue s a := rfl

@[simp] theorem State.valP_setFlags (s : State) (f : Flags) (F : Format) : (s.setFlags f).valP F = s.valP F := rfl

@[simp] theorem memRead_setFlags (s : State) (f : Flags) (addr : Word) :
    memRead (s.setFlags f) addr = memRead s addr := rfl

@[simp] theorem memWrite_setFlags (s : State) (f : Flags) (addr v : Word) :
    memWrite (s.setFlags f) addr v = (memWrite s addr v).map (·.setFlags f) := by
  unfold memWrite
  rw [State.setFlags_wordInBounds]
  split <;> rfl

@[simp] theorem push_setFlags (s : State) (f : Flags) (v : Word) :
    push (s.setFlags f) v = (push s v).map (·.setFlags f) := by
  unfold push
  rw [pushAddr_setFlags, memWrite_setFlags]
  cases memWrite s (pushAddr s) v <;> rfl

@[simp] theorem pop_setFlags (s : State) (f : Flags) :
    pop (s.setFlags f) = (pop s).map fun r => (r.1, r.2.setFlags f) := by
  unfold pop
  rw [popAddr_setFlags, memRead_setFlags]
  cases memRead s (popAddr s) <;> rfl

@[simp] theorem popInto_setFlags (t : State) (f : Flags) (a : Reg) (v : Word) :
    popInto (t.setFlags f) a v = (popInto t a v).setFlags f := by
  unfold popInto
  rw [State.setFlags_cfg]
  split
  · cases t.cfg.popqSp <;> rfl
  · rfl

/-! ## The instructions that neither write flags nor read them -/

theorem exec_rrmovq_setFlags (rA rB : RegSpec) (s : State) (f : Flags) :
    exec (.rrmovq rA rB) (s.setFlags f) = withFlags f (exec (.rrmovq rA rB) s) :=
  withRegs_setFlags fun _ _ => rfl

theorem exec_irmovq_setFlags (fill rB : RegSpec) (v : Word) (s : State) (f : Flags) :
    exec (.irmovq fill rB v) (s.setFlags f) = withFlags f (exec (.irmovq fill rB v) s) :=
  withReg_setFlags fun _ => rfl

theorem exec_rmmovq_setFlags (rA rB : RegSpec) (d : Word) (s : State) (f : Flags) :
    exec (.rmmovq rA rB d) (s.setFlags f) = withFlags f (exec (.rmmovq rA rB d) s) :=
  withRegs_setFlags fun a b => by
    rw [effAddr_setFlags, State.setFlags_reg, memWrite_setFlags]
    cases memWrite s (effAddr s b d) (s.reg a) <;> rfl

theorem exec_mrmovq_setFlags (rA rB : RegSpec) (d : Word) (s : State) (f : Flags) :
    exec (.mrmovq rA rB d) (s.setFlags f) = withFlags f (exec (.mrmovq rA rB d) s) :=
  withRegs_setFlags fun _ b => by
    rw [effAddr_setFlags, memRead_setFlags]
    cases memRead s (effAddr s b d) <;> rfl

theorem exec_call_setFlags (dest : Word) (s : State) (f : Flags) :
    exec (.call dest) (s.setFlags f) = withFlags f (exec (.call dest) s) := by
  simp only [exec, execCall, State.valP_setFlags, push_setFlags]
  cases push s (s.valP .D) <;> rfl

theorem exec_ret_setFlags (s : State) (f : Flags) : exec .ret (s.setFlags f) = withFlags f (exec .ret s) := by
  simp only [exec, execRet, pop_setFlags]
  cases pop s <;> rfl

theorem exec_pushq_setFlags (rA fill : RegSpec) (s : State) (f : Flags) :
    exec (.pushq rA fill) (s.setFlags f) = withFlags f (exec (.pushq rA fill) s) :=
  withReg_setFlags fun a => by
    rw [pushValue_setFlags, push_setFlags]
    cases push s (pushValue s a) <;> rfl

theorem exec_popq_setFlags (rA fill : RegSpec) (s : State) (f : Flags) :
    exec (.popq rA fill) (s.setFlags f) = withFlags f (exec (.popq rA fill) s) :=
  withReg_setFlags fun a => by
    rw [pop_setFlags]
    cases pop s with
    | error e => rfl
    | ok r => exact congrArg (fun t => Host.Outcome.next (t.setPc (s.valP .R))) (popInto_setFlags r.2 f a r.1)

/-- An instruction of another row of the opcode table than the writers and the readers of R17 does the same under
other flags. -/
theorem exec_setFlags_of_not_mem {i : Instr} (s : State) (f : Flags)
    (hi : i.op ∉ [.addq, .subq, .andq, .xorq, .cmovle, .cmovl, .cmove, .cmovne, .cmovge, .cmovg,
      .jle, .jl, .je, .jne, .jge, .jg]) :
    exec i (s.setFlags f) = withFlags f (exec i s) := by
  cases i with
  | halt | nop | jmp => rfl
  | rrmovq => exact exec_rrmovq_setFlags ..
  | irmovq => exact exec_irmovq_setFlags ..
  | rmmovq => exact exec_rmmovq_setFlags ..
  | mrmovq => exact exec_mrmovq_setFlags ..
  | call => exact exec_call_setFlags ..
  | ret => exact exec_ret_setFlags ..
  | pushq => exact exec_pushq_setFlags ..
  | popq => exact exec_popq_setFlags ..
  | addq | subq | andq | xorq | cmovle | cmovl | cmove | cmovne | cmovge | cmovg | jle | jl | je | jne | jge | jg =>
    simp [Instr.op] at hi

/-! ## The writers -/

theorem condMove_flags {c : CondFn} {rA rB : RegSpec} {s t : State} (h : condMove c rA rB s = .next t) :
    t.flags = s.flags := by
  rcases condMove_next h with ⟨_, _, _, _, _, rfl⟩ | ⟨_, _, _, _, _, rfl⟩ | ⟨_, rfl⟩ <;> rfl

theorem jump_flags {c : CondFn} {dest : Word} {s t : State} (h : jump c dest s = .next t) : t.flags = s.flags := by
  rw [jump_next h, State.setPc_flags]

/-- Replacing the flags by the flags changes nothing, so an operation that commutes with replacing them keeps them. -/
theorem flags_eq_of_withFlags {m : State → Result} {s t : State}
    (hm : ∀ f, m (s.setFlags f) = withFlags f (m s)) (h : m s = .next t) : t.flags = s.flags := by
  have hself := hm s.flags
  rw [State.setFlags_self, h, withFlags_next, Host.Outcome.next.injEq] at hself
  rw [hself, State.setFlags_flags]

/-- Only the four instructions of opcode 6 write flags. -/
theorem exec_flags_of_not_mem {i : Instr} {s t : State} (hi : i.op ∉ [.addq, .subq, .andq, .xorq])
    (h : exec i s = .next t) : t.flags = s.flags := by
  cases i with
  | cmovle | cmovl | cmove | cmovne | cmovge | cmovg => exact condMove_flags h
  | jle | jl | je | jne | jge | jg => exact jump_flags h
  | addq | subq | andq | xorq => simp [Instr.op] at hi
  | halt | nop | rrmovq | irmovq | rmmovq | mrmovq | jmp | call | ret | pushq | popq =>
    exact flags_eq_of_withFlags (fun f => exec_setFlags_of_not_mem s f (by simp [Instr.op])) h

/-- The flags before an instruction of opcode 6 do not matter: it writes all three. -/
theorem aluOp_setFlags (fn : AluFn) {rA rB : RegSpec} (s : State) (f : Flags)
    (hr : [rA, rB].all Option.isSome = true) : aluOp fn rA rB (s.setFlags f) = aluOp fn rA rB s := by
  cases rA with
  | none => simp at hr
  | some a =>
    cases rB with
    | none => simp at hr
    | some b => rfl

theorem exec_setFlags_of_alu {i : Instr} (s : State) (f : Flags) (hi : i.op ∈ [.addq, .subq, .andq, .xorq])
    (hw : i.wellFormed = true) : exec i (s.setFlags f) = exec i s := by
  cases i with
  | addq => exact aluOp_setFlags .add s f hw
  | subq => exact aluOp_setFlags .sub s f hw
  | andq => exact aluOp_setFlags .and s f hw
  | xorq => exact aluOp_setFlags .xor s f hw
  | _ => simp [Instr.op] at hi

/-! ## The readers -/

theorem ite_eq_ite_iff_of_ne {α : Type} {x y : α} (hxy : x ≠ y) (c d : Bool) :
    ((if c then x else y) = if d then x else y) ↔ c = d := by
  cases c <;> cases d <;> simp [hxy, hxy.symm]

/-- A jump to another place than the next instruction shows, in the `pc` it leaves, the value of its row. -/
theorem exec_jump_setFlags_iff {p : CondFn × (Word → Instr)} (hp : p ∈ jumpRows) {dest : Word} {s t : State}
    (f : Flags) (hd : dest ≠ s.pc + 9) (h : exec (p.2 dest) s = .next t) :
    exec (p.2 dest) (s.setFlags f) = .next (t.setFlags f) ↔ condHolds p.1 f = condHolds p.1 s.flags := by
  rw [exec_of_jumpRows hp, Host.Outcome.next.injEq] at h
  subst h
  rw [exec_of_jumpRows hp, Host.Outcome.next.injEq]
  exact Iff.trans ⟨congrArg State.pc, congrArg (s.setFlags f).setPc⟩
    (ite_eq_ite_iff_of_ne (y := s.valP .D) hd (condHolds p.1 f) (condHolds p.1 s.flags))

theorem reg_ite_setReg (c : Bool) (s : State) (a b : Reg) :
    (if c then s.setReg b (s.reg a) else s).reg b = if c then s.reg a else s.reg b := by
  cases c <;> simp

/-- A move between registers that differ shows, in its destination, the value of its row. -/
theorem exec_move_setFlags_iff {p : CondFn × (RegSpec → RegSpec → Instr)} (hp : p ∈ moveRows) {a b : Reg}
    {s t : State} (f : Flags) (hab : s.reg a ≠ s.reg b) (h : exec (p.2 (some a) (some b)) s = .next t) :
    exec (p.2 (some a) (some b)) (s.setFlags f) = .next (t.setFlags f) ↔
      condHolds p.1 f = condHolds p.1 s.flags := by
  rw [exec_of_moveRows hp, Host.Outcome.next.injEq] at h
  subst h
  rw [exec_of_moveRows hp, Host.Outcome.next.injEq]
  constructor
  · intro he
    have hb := congrArg (·.reg b) he
    exact (ite_eq_ite_iff_of_ne hab _ _).1
      ((reg_ite_setReg (condHolds p.1 f) (s.setFlags f) a b).symm.trans (hb.trans (reg_ite_setReg ..)))
  · intro hc
    rw [State.setFlags_flags, hc]
    split <;> rfl

/-- The flags decide every row of the condition table but the first (R90). -/
theorem condHolds_takes_both_values {c : CondFn} (hc : c ≠ .always) :
    (∃ f, condHolds c f = true) ∧ ∃ f, condHolds c f = false := by
  cases c with
  | always => exact absurd rfl hc
  | le | e => exact ⟨⟨⟨false, false, true⟩, rfl⟩, ⟨false, false, false⟩, rfl⟩
  | l => exact ⟨⟨⟨false, true, false⟩, rfl⟩, ⟨false, false, false⟩, rfl⟩
  | ne | g => exact ⟨⟨⟨false, false, false⟩, rfl⟩, ⟨false, false, true⟩, rfl⟩
  | ge => exact ⟨⟨⟨false, false, false⟩, rfl⟩, ⟨false, true, false⟩, rfl⟩

/-- Settles O22: what neither writes flags nor reads them commutes with replacing them, hence keeps them; a row of the
condition table shows in the `pc` of a jump and in the destination of a move. -/
theorem flagWritersAndReaders : Obligations.FlagWritersAndReaders := by
  refine ⟨fun _ _ _ => exec_flags_of_not_mem, fun _ s f => exec_setFlags_of_alu s f, ?neither,
    fun _ hp _ _ _ f => exec_jump_setFlags_iff hp f, fun _ hp _ _ _ _ f => exec_move_setFlags_iff hp f,
    fun _ => condHolds_takes_both_values⟩
  case neither =>
    intro i s t f hi h
    rw [exec_setFlags_of_not_mem s f hi, h, withFlags_next]

end Sys2Proof.Machine

/-! SUPPORT. The two access primitives of `spec/20_memory.md` (R33, R34). -/

namespace Sys2Proof.Machine

/-- The natural number a word in memory is (R31, R33). -/
theorem Memory.readWord_toNat (m : Memory) (a : Nat) :
    (m.readWord a).toNat =
      (m.read a).toNat + (m.read (a + 1)).toNat * 2 ^ 8 + (m.read (a + 2)).toNat * 2 ^ 16 +
        (m.read (a + 3)).toNat * 2 ^ 24 + (m.read (a + 4)).toNat * 2 ^ 32 + (m.read (a + 5)).toNat * 2 ^ 40 +
        (m.read (a + 6)).toNat * 2 ^ 48 + (m.read (a + 7)).toNat * 2 ^ 56 :=
  le64_toNat ..

/-- After a store memory holds the word stored (R31). -/
theorem holdsWord_setMem_writeWord {s : State} (addr v : Word) (h : s.mem.wf = true) :
    HoldsWord (s.setMem (s.mem.writeWord addr.toNat v)) addr v :=
  fun _ hi => Memory.read_writeWord_inside v h hi

/-- A store changes no byte outside its eight (R34). -/
theorem sameMemOutside_setMem_writeWord {s : State} (addr v : Word) (h : s.mem.wf = true) :
    SameMemOutside addr s (s.setMem (s.mem.writeWord addr.toNat v)) :=
  fun _ hn => Memory.read_writeWord_outside v h hn

/-- Replacing memory keeps every register, the flags, the status and the parameters. -/
theorem keepsRest_setMem (s : State) (m : Memory) : KeepsRest [] s (s.setMem m) :=
  ⟨fun _ _ => rfl, rfl, rfl, rfl⟩

/-- Settles O35: in bounds the new state is the old one with `writeWord`'s memory, whose bytes inside and outside the
word are known. -/
theorem memWriteIsLittleEndian : Obligations.MemWriteIsLittleEndian := by
  intro s addr v hwf
  refine ⟨memWrite_error, fun hb => ⟨_, memWrite_ok hb, ?stored, ?others, ?rest, rfl⟩⟩
  case stored => exact holdsWord_setMem_writeWord addr v hwf
  case others => exact sameMemOutside_setMem_writeWord addr v hwf
  case rest => exact keepsRest_setMem s _

/-- Settles O34: in bounds the answer is `readWord`'s, which is the sum of R5's `LE64`. -/
theorem memReadIsLittleEndian : Obligations.MemReadIsLittleEndian := by
  intro s addr
  exact ⟨memRead_error, fun hb => ⟨_, memRead_ok hb, Memory.readWord_toNat s.mem addr.toNat⟩⟩

end Sys2Proof.Machine

/-! SUPPORT. `nop` (`spec/40_step_halt_nop.md` R83). -/

namespace Sys2Proof.Machine

/-- Behind byte 0 of a row the decoder takes the fields of the row's format (R54, R56). -/
theorem decode_byte_cons {op : Op} {f : Fields} {bs rest : List Byte} (h : takeFields op.format bs = some (f, rest)) :
    decode (op.byte :: bs) = .ok (op.build f) rest := by
  simp only [decode, opOfByte_byte, h]

/-- The address after an instruction of one byte (R55). -/
theorem State.valP_O (s : State) : s.valP .O = s.pc + 1 := rfl

theorem exec_nop (s : State) : exec .nop s = .next (s.setPc (s.valP .O)) := rfl

/-- Moving the program counter keeps every register, the flags, the status and the parameters. -/
theorem keepsRest_setPc (s : State) (w : Word) : KeepsRest [] s (s.setPc w) :=
  ⟨fun r _ => s.setPc_reg w r, s.setPc_flags w, s.setPc_status w, s.setPc_cfg w⟩

theorem sameMem_setPc (s : State) (w : Word) : SameMem s (s.setPc w) :=
  fun n => congrArg (·.read n) (s.setPc_mem w)

/-- Settles O29: the row of byte 0x10 has no fields, and its instruction writes `pc` alone. -/
theorem nopOnlyAdvances : Obligations.NopOnlyAdvances := by
  refine ⟨fun _ => decode_byte_cons (op := .nop) rfl, fun s => ⟨_, exec_nop s, ?pc, ?rest, ?memory⟩⟩
  case pc => rw [State.setPc_pc, State.valP_O]
  case rest => exact keepsRest_setPc s _
  case memory => exact sameMem_setPc s _

end Sys2Proof.Machine

/-! SUPPORT. Wrapping addition and the signed value in the terms of the library (`spec/43_alu.md` R122, R124). -/

namespace Sys2Proof.Machine

/-! ## The conversions (R124) -/

theorem toSigned64_of_lt {u : Word} (h : u.toNat < 2 ^ 63) : toSigned64 u = u.toNat := if_pos h

theorem toSigned64_of_le {u : Word} (h : 2 ^ 63 ≤ u.toNat) : toSigned64 u = (u.toNat : Int) - 2 ^ 64 :=
  if_neg (by omega)

/-- What is stored for `x` is its remainder modulo `2^64` (R5). -/
theorem toUnsigned64_toNat (x : Int) : ((toUnsigned64 x).toNat : Int) = x % 2 ^ 64 := by
  rw [toUnsigned64, BitVec.toNat_ofInt]
  exact Int.toNat_of_nonneg (Int.emod_nonneg x (by decide))

theorem toSigned64_toUnsigned64 {x : Int} (hl : -(2 ^ 63) ≤ x) (hu : x < 2 ^ 63) :
    toSigned64 (toUnsigned64 x) = x := by
  rw [toSigned64_eq_toInt]
  exact BitVec.toInt_ofInt_eq_self (by decide) hl hu

theorem toUnsigned64_toSigned64 (u : Word) : toUnsigned64 (toSigned64 u) = u := by
  rw [toSigned64_eq_toInt]
  exact BitVec.ofInt_toInt

/-- Settles O41: in the signed range the remainder modulo `2^64` is `x` or `x + 2^64`, by the sign of `x`. -/
theorem signedConversionsAreInverse : Obligations.SignedConversionsAreInverse := by
  refine ⟨fun _ => ⟨toSigned64_of_lt, toSigned64_of_le⟩, fun x hl hu => ⟨?nonneg, ?neg, ?inverse⟩,
    toUnsigned64_toSigned64⟩
  case nonneg =>
    intro h
    rw [toUnsigned64_toNat]
    exact Int.emod_eq_of_lt h (by omega)
  case neg =>
    intro h
    rw [toUnsigned64_toNat, ← Int.add_emod_right]
    exact Int.emod_eq_of_lt (by omega) (by omega)
  case inverse => exact toSigned64_toUnsigned64 hl hu

/-! ## Wrapping addition (R122) -/

/-- R122's rule in terms of bit 63 of the operands and of the result. -/
theorem addOverflowing_snd_iff_signs (p q : Word) :
    (addOverflowing p q).2 = true ↔
      p.getLsbD 63 = q.getLsbD 63 ∧ (p + q).getLsbD 63 ≠ p.getLsbD 63 := by
  simp [addOverflowing, sign, BitVec.msb_eq_getLsbD_last]

/-- R122's rule on the signs is the library's test of the signed sum. -/
theorem addOverflowing_snd (p q : Word) : (addOverflowing p q).2 = p.saddOverflow q :=
  (BitVec.saddOverflow_eq p q).symm

/-- The flag is set exactly when the signed sum leaves the signed range. -/
theorem addOverflowing_snd_iff_range (p q : Word) :
    (addOverflowing p q).2 = true ↔
      toSigned64 p + toSigned64 q < -(2 ^ 63) ∨ 2 ^ 63 ≤ toSigned64 p + toSigned64 q := by
  rw [addOverflowing_snd, BitVec.saddOverflow, toSigned64_eq_toInt, toSigned64_eq_toInt, Bool.or_eq_true,
    decide_eq_true_eq, decide_eq_true_eq]
  exact or_comm

/-- Settles O39: the flag's rule on the signs is the library's signed overflow. -/
theorem addOverflowIsSignedOverflow : Obligations.AddOverflowIsSignedOverflow := fun p q =>
  ⟨BitVec.toNat_add p q, addOverflowing_snd_iff_signs p q, addOverflowing_snd_iff_range p q⟩

end Sys2Proof.Machine

/-! SUPPORT. The transitions of the status (`spec/60_exceptions.md` R160). -/

namespace Sys2Proof.Machine

/-! ## The branches of `step` (R80, R84) -/

/-- A step in a terminal status changes nothing (R84). -/
theorem step_terminal {s : State} (h : s.status ≠ .running) : step s = .next s := by
  cases hs : s.status with
  | running => exact absurd hs h
  | halted | invalidAddress | invalidInstruction => simp only [step, hs]

/-- A running machine executes what it fetches (R80). -/
theorem step_of_fetch_ok {s : State} {i : Instr} (h : s.status = .running) (hf : fetch s = .ok i) :
    step s = exec i s := by
  simp only [step, h, hf]

/-- A running machine raises the exception of its fetch (R80). -/
theorem step_of_fetch_error {s : State} {e : Exc} (h : s.status = .running) (hf : fetch s = .error e) :
    step s = raise e s := by
  simp only [step, h, hf]

/-! ## The status after a step -/

/-- The new status after an exception is the exception's (R165). -/
theorem raise_status {e : Exc} {s t : State} (h : raise e s = .next t) : t.status = e.status := by
  obtain rfl := Host.Outcome.next.inj h
  exact s.setStatus_status e.status

theorem exec_halt (s : State) : exec .halt s = .next (s.setStatus .halted) := rfl

/-- Any instruction other than `halt` keeps the status or raises an exception. -/
theorem exec_status_of_ne_halt {i : Instr} {s t : State} (hi : i ≠ .halt) (h : exec i s = .next t) :
    t.status = s.status ∨ ∃ e : Exc, exec i s = raise e s ∧ t.status = e.status := by
  rcases exec_status h with ⟨e, rfl⟩ | ⟨rfl, _⟩ | ⟨hs, _⟩
  · exact .inr ⟨e, h, s.setStatus_status e.status⟩
  · exact absurd rfl hi
  · exact .inl hs

/-- Settles O13: each row of the table is a branch of `step`, and a running machine's `exec` keeps the status Running,
halts or raises. -/
theorem statusTransitions : Obligations.StatusTransitions := by
  refine ⟨State.resetWith_status, fun s t h => ⟨?terminal, fun hr => ⟨?fetchRaises, ?halt, ?other⟩⟩⟩
  case terminal =>
    intro hn
    obtain rfl := Host.Outcome.next.inj ((step_terminal hn).symm.trans h)
    rfl
  case fetchRaises =>
    intro e hf
    exact raise_status ((step_of_fetch_error hr hf).symm.trans h)
  case halt =>
    intro hf
    rw [step_of_fetch_ok hr hf, exec_halt] at h
    obtain rfl := Host.Outcome.next.inj h
    exact s.setStatus_status .halted
  case other =>
    intro i hf hi
    rw [step_of_fetch_ok hr hf] at h
    exact hr ▸ exec_status_of_ne_halt hi h

end Sys2Proof.Machine

/-! SUPPORT. The encoder and the decoder undo each other (`spec/30_encoding.md` R50 to R61). -/

namespace Sys2Proof

/-! ## An instruction as a row of R58 and its fields -/

/-- The fields of an instruction behind byte 0; absent fields have the placeholders of R56. -/
def Instr.fields : Instr → Fields
  | .halt | .nop | .ret => ⟨none, none, 0⟩
  | .rrmovq rA rB | .cmovle rA rB | .cmovl rA rB | .cmove rA rB | .cmovne rA rB | .cmovge rA rB | .cmovg rA rB
  | .addq rA rB | .subq rA rB | .andq rA rB | .xorq rA rB | .pushq rA rB | .popq rA rB => ⟨rA, rB, 0⟩
  | .irmovq rA rB c | .rmmovq rA rB c | .mrmovq rA rB c => ⟨rA, rB, c⟩
  | .jmp c | .jle c | .jl c | .je c | .jne c | .jge c | .jg c | .call c => ⟨none, none, c⟩

/-- The bytes behind byte 0 that hold the fields of a format (R54). -/
def Format.fieldBytes : Format → Fields → List Byte
  | .O, _ => []
  | .R, f => [regByte f.rA f.rB]
  | .D, f => wordBytes f.valC
  | .I, f => regByte f.rA f.rB :: wordBytes f.valC

@[simp] theorem Instr.build_fields (i : Instr) : i.op.build i.fields = i := by cases i <;> rfl

/-- The encoding of an instruction is byte 0 of its row and the bytes of its fields. -/
theorem encode_build (op : Op) (f : Fields) : encode (op.build f) = op.byte :: op.format.fieldBytes f := by
  cases op <;> rfl

theorem encode_eq (i : Instr) : encode i = i.op.byte :: i.op.format.fieldBytes i.fields := by
  conv_lhs => rw [← i.build_fields]
  exact encode_build ..

theorem Format.length_fieldBytes (F : Format) (f : Fields) : (F.fieldBytes f).length + 1 = F.length := by
  cases F <;> rfl

/-- An encoding has the length of its format (R55). -/
@[simp] theorem length_encode (i : Instr) : (encode i).length = i.length := by
  rw [encode_eq, List.length_cons, Format.length_fieldBytes, Instr.length]

theorem Instr.one_le_length (i : Instr) : 1 ≤ i.length := i.op.format.one_le_length

theorem Instr.length_le_max (i : Instr) : i.length ≤ maxInstrLen := i.op.format.length_le_max

/-! ## The fields of a format, written and read -/

/-- The bytes of an instruction's fields are read back as its fields. -/
theorem takeFields_fieldBytes (i : Instr) (rest : List Byte) :
    takeFields i.op.format (i.op.format.fieldBytes i.fields ++ rest) = some (i.fields, rest) := by
  cases i <;> simp [Instr.op, Op.format, Format.fieldBytes, Instr.fields, takeFields]

/-- Bytes read as fields are the bytes of the fields, and the rest. -/
theorem eq_fieldBytes_of_takeFields {F : Format} {bs rest : List Byte} {f : Fields}
    (h : takeFields F bs = some (f, rest)) : bs = F.fieldBytes f ++ rest := by
  cases F with
  | O =>
    obtain ⟨rfl, rfl⟩ := Prod.mk.inj (Option.some.inj h)
    rfl
  | R =>
    cases bs with
    | nil => simp [takeFields] at h
    | cons b1 bs =>
      obtain ⟨rfl, rfl⟩ := Prod.mk.inj (Option.some.inj h)
      simp [Format.fieldBytes]
  | D =>
    cases hc : takeConst bs with
    | none => simp [takeFields, hc] at h
    | some p =>
      simp only [takeFields, hc, Option.some.injEq, Prod.mk.injEq] at h
      obtain ⟨rfl, rfl⟩ := h
      exact takeConst_eq_some.1 hc
  | I =>
    cases bs with
    | nil => simp [takeFields] at h
    | cons b1 bs =>
      cases hc : takeConst bs with
      | none => simp [takeFields, hc] at h
      | some p =>
        simp only [takeFields, hc, Option.some.injEq, Prod.mk.injEq] at h
        obtain ⟨rfl, rfl⟩ := h
        rw [Format.fieldBytes, regByte_of_nibbles, List.cons_append, ← takeConst_eq_some.1 hc]

end Sys2Proof

namespace Sys2Proof.Machine

/-! ## The round trips -/

/-- Settles O5: byte 0 selects the instruction's row, whose format reads the bytes of the fields back. -/
theorem decodeOfEncodeIsTheInstruction : Obligations.DecodeOfEncodeIsTheInstruction := by
  intro i rest
  rw [encode_eq, List.cons_append, decode_byte_cons (takeFields_fieldBytes i rest), Instr.build_fields]

/-- Settles O6: where the decoder answers, byte 0 is a row's and the bytes behind it are the bytes of its fields. -/
theorem decodedBytesAreTheEncoding : Obligations.DecodedBytesAreTheEncoding := by
  intro bs rest i h
  rcases decode_cases bs with ⟨_, hd⟩ | ⟨_, _, _, _, hd⟩ | ⟨_, _, _, _, hd⟩ | ⟨op, bs', f, rest', rfl, hf, hd⟩
  case inr.inr.inr =>
    obtain ⟨rfl, rfl⟩ := Decoded.ok.inj (hd.symm.trans h)
    rw [eq_fieldBytes_of_takeFields hf, encode_build, List.cons_append]
  all_goals exact nomatch hd.symm.trans h

/-- What decodes is as long as its format says. -/
theorem length_of_decode {bs rest : List Byte} {i : Instr} (h : decode bs = .ok i rest) :
    bs.length = i.length + rest.length := by
  rw [decodedBytesAreTheEncoding _ _ _ h, List.length_append, length_encode]

/-! ## What the decoder accepts (R55, R57) -/

theorem decode_cons_eq_invalidOp {b : Byte} {rest : List Byte} :
    decode (b :: rest) = .rejected .invalidOp ↔ opOfByte b = none := by
  cases ho : opOfByte b with
  | none => simp [decode, ho]
  | some op => cases hf : takeFields op.format rest <;> simp [decode, ho, hf]

/-- An opcode byte that R57 accepts, with the format R55 gives it, is the byte of a row with that format. -/
theorem exists_op_of_validOp {b : Byte} {F : Format} (hv : validOp (hiNibble b) (loNibble b) = true)
    (hF : formatOf (hiNibble b) = some F) : ∃ op : Op, b = op.byte ∧ op.format = F := by
  rw [← opOfByte_isSome, Option.isSome_iff_exists] at hv
  obtain ⟨op, ho⟩ := hv
  obtain rfl := opOfByte_eq_some.1 ho
  exact ⟨op, rfl, Option.some.inj (op.formatOf_byte.symm.trans hF)⟩

/-- With all the bytes of its format there, a row's byte decodes to an instruction of the row. -/
theorem exists_decode_byte {op : Op} {rest : List Byte} (h : op.format.length ≤ rest.length + 1) :
    ∃ i rest', decode (op.byte :: rest) = .ok i rest' ∧ i.op = op := by
  cases hf : takeFields op.format rest with
  | none => exact absurd (takeFields_eq_none.1 hf) (by omega)
  | some p => exact ⟨_, p.2, decode_byte_cons hf, op.op_build p.1⟩

theorem decode_byte_truncated {op : Op} {rest : List Byte} (h : rest.length + 1 < op.format.length) :
    decode (op.byte :: rest) = .rejected .truncated := by
  simp [decode, takeFields_eq_none.2 h]

/-- Settles O7: the decoder rejects byte 0 where it selects no row, and misses a byte exactly where the row's format
is longer than the list. -/
theorem decoderAcceptsExactlyValidOpcodes : Obligations.DecoderAcceptsExactlyValidOpcodes := by
  intro b rest
  refine ⟨decode_cons_eq_invalidOp.trans opOfByte_eq_none, fun F hv hF => ⟨?needs, ?accepts⟩⟩
  case needs =>
    rintro ⟨_, _, _, hl⟩
    omega
  case accepts =>
    intro hl
    obtain ⟨op, rfl, rfl⟩ := exists_op_of_validOp hv hF
    obtain ⟨i, rest', hd, rfl⟩ := exists_decode_byte hl
    have hlen := length_of_decode hd
    rw [List.length_cons, Instr.length] at hlen
    exact ⟨i, rest', hd, by omega⟩

theorem decode_of_encode_eq {i : Instr} {bs : List Byte} (h : encode i = bs) : decode bs = .ok i [] := by
  rw [← h, ← List.append_nil (encode i), decodeOfEncodeIsTheInstruction]

/-- Settles O8: each word is the encoding of its instruction, and decoding undoes encoding. -/
theorem wordsOfTheSpecDecode : Obligations.WordsOfTheSpecDecode := by
  refine ⟨?_, ?_, ?_, ?_, ?_, ?_, ?_, ?_, ?_, ?_, ?_, ?_, ?_⟩ <;> exact decode_of_encode_eq (by decide)

end Sys2Proof.Machine

/-! SUPPORT. Fetching: which bytes decide it, and the exception it raises (`spec/20_memory.md` R35,
`spec/30_encoding.md` R56, decisions D10 and D11). -/

namespace Sys2Proof.Machine

/-! ## Runs of bytes -/

theorem Memory.readBytes_congr {m m' : Memory} {a n : Nat} (h : ∀ k < n, m'.read (a + k) = m.read (a + k)) :
    m'.readBytes a n = m.readBytes a n :=
  List.ext_getElem (by simp) fun k hk _ => by
    rw [Memory.length_readBytes] at hk
    simpa using h k hk

/-- Where the bytes read begin with `bs`, reading as many bytes as `bs` has gives `bs`. -/
theorem Memory.readBytes_of_eq_append {m : Memory} {a n : Nat} {bs rest : List Byte}
    (h : m.readBytes a n = bs ++ rest) : bs.length ≤ n ∧ m.readBytes a bs.length = bs := by
  have hn : n = bs.length + rest.length := by simpa using congrArg List.length h
  rw [hn, Memory.readBytes_add] at h
  exact ⟨by omega, (List.append_inj h (by simp)).1⟩

/-- Bytes stored inside the run read are read back. -/
theorem Memory.readBytes_writeBytes {m : Memory} (a : Nat) (bs : List Byte) (h : m.wf = true) :
    (m.writeBytes a bs).readBytes a bs.length = bs :=
  List.ext_getElem (by simp) fun k _ hk => by
    rw [Memory.getElem_readBytes, Memory.read_writeBytes_inside bs h hk]

/-! ## A successful fetch -/

theorem fetch_eq_ok_iff_window {s : State} {i : Instr} :
    fetch s = .ok i ↔ ∃ rest, decode (fetchWindow s) = .ok i rest := by
  unfold fetch
  cases decode (fetchWindow s) <;> simp

theorem fetch_of_rejected {s : State} {e : DecodeError} (h : decode (fetchWindow s) = .rejected e) :
    fetch s = .error (DecodeError.exc e) := by
  simp only [fetch, h]

/-- A fetch gives an instruction exactly where the bytes of its encoding stand at `pc`, all of them inside memory. -/
theorem fetch_eq_ok_iff {s : State} {i : Instr} :
    fetch s = .ok i ↔ s.pc.toNat + i.length ≤ s.cfg.memSize ∧ s.mem.readBytes s.pc.toNat i.length = encode i := by
  have hpos := i.one_le_length
  constructor
  · intro h
    obtain ⟨rest, hd⟩ := fetch_eq_ok_iff_window.1 h
    have hbytes := Memory.readBytes_of_eq_append (decodedBytesAreTheEncoding _ _ _ hd)
    rw [length_encode] at hbytes
    exact ⟨by omega, hbytes.2⟩
  · rintro ⟨hb, he⟩
    have hmax := i.length_le_max
    have hwindow : fetchWindow s = encode i ++ s.mem.readBytes (s.pc.toNat + i.length)
        (min maxInstrLen (s.cfg.memSize - s.pc.toNat) - i.length) := by
      rw [← he, ← Memory.readBytes_add, fetchWindow, Nat.add_sub_cancel' (by omega)]
    exact fetch_eq_ok_iff_window.2 ⟨_, hwindow ▸ decodeOfEncodeIsTheInstruction i _⟩

/-- Any number of bytes inside memory that decode are enough for the fetch. -/
theorem fetch_of_decode {s : State} {k : Nat} {i : Instr} {rest : List Byte} (hk : s.pc.toNat + k ≤ s.cfg.memSize)
    (hd : decode (s.mem.readBytes s.pc.toNat k) = .ok i rest) : fetch s = .ok i := by
  have hbytes := Memory.readBytes_of_eq_append (decodedBytesAreTheEncoding _ _ _ hd)
  rw [length_encode] at hbytes
  exact fetch_eq_ok_iff.2 ⟨by omega, hbytes.2⟩

/-- The byte `k` of a fetched instruction's encoding stands at `pc + k`. -/
theorem read_of_fetch {s : State} {i : Instr} (h : fetch s = .ok i) {k : Nat} (hk : k < (encode i).length) :
    s.mem.read (s.pc.toNat + k) = (encode i)[k] := by
  have he := (fetch_eq_ok_iff.1 h).2
  simp only [← he, Memory.getElem_readBytes]

/-! ## Every fetch -/

/-- With `pc` inside memory the window is byte 0 and the bytes behind it. -/
theorem fetchWindow_eq_cons {s : State} (h : s.pc.toNat < s.cfg.memSize) :
    ∃ rest, fetchWindow s = s.mem.read s.pc.toNat :: rest ∧
      rest.length + 1 = min maxInstrLen (s.cfg.memSize - s.pc.toNat) := by
  obtain ⟨n, hn⟩ : ∃ n, min maxInstrLen (s.cfg.memSize - s.pc.toNat) = n + 1 :=
    Nat.exists_eq_succ_of_ne_zero (by simp only [maxInstrLen]; omega)
  exact ⟨_, by rw [fetchWindow, hn, Memory.readBytes], by rw [Memory.length_readBytes, hn]⟩

/-- Outside memory there is no byte 0. -/
theorem fetch_of_le {s : State} (h : s.cfg.memSize ≤ s.pc.toNat) : fetch s = .error .invalidAddress :=
  fetch_of_rejected (e := .truncated) (by
    rw [fetchWindow, Nat.sub_eq_zero_of_le h]
    rfl)

theorem fetch_of_opOfByte_eq_none {s : State} (h : s.pc.toNat < s.cfg.memSize)
    (ho : opOfByte (s.mem.read s.pc.toNat) = none) : fetch s = .error .invalidInstruction := by
  obtain ⟨rest, hw, _⟩ := fetchWindow_eq_cons h
  exact fetch_of_rejected (e := .invalidOp) (hw ▸ decode_cons_eq_invalidOp.2 ho)

theorem fetch_of_truncated {s : State} {op : Op} (h : s.pc.toNat < s.cfg.memSize)
    (ho : s.mem.read s.pc.toNat = op.byte) (hl : s.cfg.memSize < s.pc.toNat + op.format.length) :
    fetch s = .error .invalidAddress := by
  obtain ⟨rest, hw, hn⟩ := fetchWindow_eq_cons h
  rw [ho] at hw
  exact fetch_of_rejected (e := .truncated) (hw ▸ decode_byte_truncated (by omega))

theorem exists_fetch_eq_ok {s : State} {op : Op} (ho : s.mem.read s.pc.toNat = op.byte)
    (hl : s.pc.toNat + op.format.length ≤ s.cfg.memSize) : ∃ i, fetch s = .ok i ∧ i.op = op := by
  have hone := op.format.one_le_length
  have hmax := op.format.length_le_max
  obtain ⟨rest, hw, hn⟩ := fetchWindow_eq_cons (s := s) (by omega)
  obtain ⟨i, rest', hd, hi⟩ := exists_decode_byte (op := op) (rest := rest) (by omega)
  rw [ho] at hw
  exact ⟨i, fetch_eq_ok_iff_window.2 ⟨rest', hw ▸ hd⟩, hi⟩

/-- What a fetch can do, in the order of R164: `pc` lies outside memory; byte 0 selects no row; a byte of the row's
format lies outside memory; or the instruction is there. -/
theorem fetch_cases (s : State) :
    (s.cfg.memSize ≤ s.pc.toNat ∧ fetch s = .error .invalidAddress) ∨
    (s.pc.toNat < s.cfg.memSize ∧ opOfByte (s.mem.read s.pc.toNat) = none ∧
      fetch s = .error .invalidInstruction) ∨
    (∃ op : Op, s.pc.toNat < s.cfg.memSize ∧ s.mem.read s.pc.toNat = op.byte ∧
      s.cfg.memSize < s.pc.toNat + op.format.length ∧ fetch s = .error .invalidAddress) ∨
    ∃ i : Instr, fetch s = .ok i := by
  rcases Nat.lt_or_ge s.pc.toNat s.cfg.memSize with hpc | hpc
  · refine .inr ?_
    cases ho : opOfByte (s.mem.read s.pc.toNat) with
    | none => exact .inl ⟨hpc, rfl, fetch_of_opOfByte_eq_none hpc ho⟩
    | some op =>
      refine .inr ?_
      have hbyte := opOfByte_eq_some.1 ho
      rcases Nat.lt_or_ge s.cfg.memSize (s.pc.toNat + op.format.length) with hl | hl
      · exact .inl ⟨op, hpc, hbyte, hl, fetch_of_truncated hpc hbyte hl⟩
      · exact .inr ((exists_fetch_eq_ok hbyte hl).imp fun _ h => h.1)
  · exact .inl ⟨hpc, fetch_of_le hpc⟩

/-! ## The statements about the fetch -/

/-- Settles O17: a fetch is decided by the bytes of the encoding it finds. -/
theorem fetchDependsOnOwnBytesOnly : Obligations.FetchDependsOnOwnBytesOnly := by
  intro s s' i h hpc hcfg hbytes
  rw [fetch_eq_ok_iff] at h ⊢
  rwa [hpc, hcfg, Memory.readBytes_congr hbytes]

/-- Settles O9: the bytes that decode are enough for the fetch, and `step` executes what it fetches. -/
theorem stepRunsTheDecodedInstruction : Obligations.StepRunsTheDecodedInstruction := by
  intro s k i rest hr hk hd
  exact step_of_fetch_ok hr (fetch_of_decode hk hd)

@[simp] theorem length_bytesOfNat (n w : Nat) : (bytesOfNat n w).length = n := by
  induction n generalizing w with
  | zero => rfl
  | succ n ih => rw [bytesOfNat, List.length_cons, ih]

@[simp] theorem length_tableBytes (nbits w : Nat) : (tableBytes nbits w).length = 10 := length_bytesOfNat ..

theorem decode_of_decodeTableWord {nbits w : Nat} {i : Instr} (h : decodeTableWord nbits w = some i) :
    ∃ rest, decode (tableBytes nbits w) = .ok i rest := by
  unfold decodeTableWord at h
  split at h
  next j rest hd => exact ⟨rest, Option.some.inj h ▸ hd⟩
  next => exact nomatch h

/-- Settles O10: with ten bytes of memory left all of the word is stored, and reading it back gives bytes that
decode. -/
theorem placedTableWordRuns : Obligations.PlacedTableWordRuns := by
  intro s nbits w i hr hwf hpc hd
  obtain ⟨rest, hd⟩ := decode_of_decodeTableWord hd
  have hread : (s.withFetchWord nbits w).mem.readBytes s.pc.toNat 10 = tableBytes nbits w := by
    have htake : (tableBytes nbits w).take (s.cfg.memSize - s.pc.toNat) = tableBytes nbits w :=
      List.take_of_length_le (by rw [length_tableBytes]; omega)
    have hback := Memory.readBytes_writeBytes s.pc.toNat (tableBytes nbits w) hwf
    rw [length_tableBytes] at hback
    rw [State.withFetchWord, htake, State.setMem_mem, hback]
  exact stepRunsTheDecodedInstruction _ 10 i rest hr hpc (hread ▸ hd)

end Sys2Proof.Machine

/-! SUPPORT. What executing an instruction can do, said once: it completes, a required register is missing, or its data
access is out of bounds (`spec/40_step_halt_nop.md` R81, `spec/60_exceptions.md` R161, R162, R165). -/

namespace Sys2Proof.Machine

/-! ## The instructions of opcode 6 as rows -/

/-- The four instructions of opcode 6 with their rows of R120's table (R127 to R130). -/
def aluRows : List (AluFn × (RegSpec → RegSpec → Instr)) :=
  [(.add, .addq), (.sub, .subq), (.and, .andq), (.xor, .xorq)]

theorem exec_of_aluRows {p : AluFn × (RegSpec → RegSpec → Instr)} (hp : p ∈ aluRows) (a b : Reg) (s : State) :
    exec (p.2 (some a) (some b)) s =
      .next (((s.setReg b (aluResult p.1 (s.reg a) (s.reg b)).1).setFlags
        (aluFlags p.1 (s.reg a) (s.reg b))).setPc (s.valP .R)) := by
  simp only [aluRows, List.mem_cons, List.not_mem_nil, or_false] at hp
  rcases hp with rfl | rfl | rfl | rfl <;> rfl

/-! ## Completing -/

/-- `Completes i s t`: the instruction `i` runs to its end from `s`, past every check, and leaves `t`. One rule for each
shared meaning; `exec_of_completes` and `completes_of_exec` tie it to `exec`. -/
inductive Completes : Instr → State → State → Prop
  | halt (s : State) : Completes .halt s (s.setStatus .halted)
  | nop (s : State) : Completes .nop s (s.setPc (s.valP .O))
  | move {p : CondFn × (RegSpec → RegSpec → Instr)} (hp : p ∈ moveRows) (a b : Reg) (s : State) :
      Completes (p.2 (some a) (some b)) s
        ((if condHolds p.1 s.flags then s.setReg b (s.reg a) else s).setPc (s.valP .R))
  | irmovq (fill : RegSpec) (b : Reg) (v : Word) (s : State) :
      Completes (.irmovq fill (some b) v) s ((s.setReg b v).setPc (s.valP .I))
  | rmmovq (a b : Reg) (d : Word) {s : State} (h : (effAddr s b d).toNat + 8 ≤ s.cfg.memSize) :
      Completes (.rmmovq (some a) (some b) d) s
        ((s.setMem (s.mem.writeWord (effAddr s b d).toNat (s.reg a))).setPc (s.valP .I))
  | mrmovq (a b : Reg) (d : Word) {s : State} (h : (effAddr s b d).toNat + 8 ≤ s.cfg.memSize) :
      Completes (.mrmovq (some a) (some b) d) s
        ((s.setReg a (s.mem.readWord (effAddr s b d).toNat)).setPc (s.valP .I))
  | alu {p : AluFn × (RegSpec → RegSpec → Instr)} (hp : p ∈ aluRows) (a b : Reg) (s : State) :
      Completes (p.2 (some a) (some b)) s
        (((s.setReg b (aluResult p.1 (s.reg a) (s.reg b)).1).setFlags
          (aluFlags p.1 (s.reg a) (s.reg b))).setPc (s.valP .R))
  | jump {p : CondFn × (Word → Instr)} (hp : p ∈ jumpRows) (dest : Word) (s : State) :
      Completes (p.2 dest) s (s.setPc (if condHolds p.1 s.flags then dest else s.valP .D))
  | call (dest : Word) {s : State} (h : (pushAddr s).toNat + 8 ≤ s.cfg.memSize) :
      Completes (.call dest) s
        (((s.setMem (s.mem.writeWord (pushAddr s).toNat (s.valP .D))).setReg .rsp (pushAddr s)).setPc dest)
  | ret {s : State} (h : (popAddr s).toNat + 8 ≤ s.cfg.memSize) :
      Completes .ret s ((s.setReg .rsp (s.reg .rsp + 8)).setPc (s.mem.readWord (popAddr s).toNat))
  | pushq (a : Reg) (fill : RegSpec) {s : State} (h : (pushAddr s).toNat + 8 ≤ s.cfg.memSize) :
      Completes (.pushq (some a) fill) s
        (((s.setMem (s.mem.writeWord (pushAddr s).toNat (pushValue s a))).setReg .rsp (pushAddr s)).setPc (s.valP .R))
  | popq (a : Reg) (fill : RegSpec) {s : State} (h : (popAddr s).toNat + 8 ≤ s.cfg.memSize) :
      Completes (.popq (some a) fill) s
        ((popInto (s.setReg .rsp (s.reg .rsp + 8)) a (s.mem.readWord (popAddr s).toNat)).setPc (s.valP .R))

theorem exec_of_completes {i : Instr} {s t : State} (h : Completes i s t) : exec i s = .next t := by
  cases h with
  | halt => exact exec_halt s
  | nop => exact exec_nop s
  | move hp a b => exact exec_of_moveRows hp a b s
  | irmovq => rfl
  | rmmovq a b d h => exact exec_rmmovq_ok h
  | mrmovq a b d h => exact exec_mrmovq_ok h
  | alu hp a b => exact exec_of_aluRows hp a b s
  | jump hp dest => exact exec_of_jumpRows hp dest s
  | call dest h => exact exec_call_ok h
  | ret h => exact exec_ret_ok h
  | pushq a fill h => exact exec_pushq_ok h
  | popq a fill h => exact exec_popq_ok h

/-- The data access of the instruction, if it makes one, lies inside memory. -/
def AccessInBounds (i : Instr) (s : State) : Prop :=
  ∀ addr st, dataAccess i s = some (addr, st) → addr.toNat + 8 ≤ s.cfg.memSize

theorem exists_reg_of_wellFormed {rA : RegSpec} (h : [rA].all Option.isSome = true) : ∃ a, rA = some a := by
  simpa [Option.isSome_iff_exists] using h

theorem exists_regs_of_wellFormed {rA rB : RegSpec} (h : [rA, rB].all Option.isSome = true) :
    ∃ a b, rA = some a ∧ rB = some b := by
  simpa [Option.isSome_iff_exists] using h

theorem exists_completes_move {p : CondFn × (RegSpec → RegSpec → Instr)} (hp : p ∈ moveRows) {rA rB : RegSpec}
    (s : State) (hw : [rA, rB].all Option.isSome = true) : ∃ t, Completes (p.2 rA rB) s t := by
  obtain ⟨a, b, rfl, rfl⟩ := exists_regs_of_wellFormed hw
  exact ⟨_, .move hp a b s⟩

theorem exists_completes_alu {p : AluFn × (RegSpec → RegSpec → Instr)} (hp : p ∈ aluRows) {rA rB : RegSpec}
    (s : State) (hw : [rA, rB].all Option.isSome = true) : ∃ t, Completes (p.2 rA rB) s t := by
  obtain ⟨a, b, rfl, rfl⟩ := exists_regs_of_wellFormed hw
  exact ⟨_, .alu hp a b s⟩

/-- With its required registers named and its access in bounds every instruction completes. -/
theorem exists_completes {i : Instr} {s : State} (hw : i.wellFormed = true) (hb : AccessInBounds i s) :
    ∃ t, Completes i s t := by
  cases i with
  | halt => exact ⟨_, .halt s⟩
  | nop => exact ⟨_, .nop s⟩
  | rrmovq => exact exists_completes_move (p := (.always, .rrmovq)) (by simp [moveRows]) s hw
  | cmovle => exact exists_completes_move (p := (.le, .cmovle)) (by simp [moveRows]) s hw
  | cmovl => exact exists_completes_move (p := (.l, .cmovl)) (by simp [moveRows]) s hw
  | cmove => exact exists_completes_move (p := (.e, .cmove)) (by simp [moveRows]) s hw
  | cmovne => exact exists_completes_move (p := (.ne, .cmovne)) (by simp [moveRows]) s hw
  | cmovge => exact exists_completes_move (p := (.ge, .cmovge)) (by simp [moveRows]) s hw
  | cmovg => exact exists_completes_move (p := (.g, .cmovg)) (by simp [moveRows]) s hw
  | irmovq fill rB v =>
    obtain ⟨b, rfl⟩ := exists_reg_of_wellFormed hw
    exact ⟨_, .irmovq fill b v s⟩
  | rmmovq rA rB d =>
    obtain ⟨a, b, rfl, rfl⟩ := exists_regs_of_wellFormed hw
    exact ⟨_, .rmmovq a b d (hb _ _ rfl)⟩
  | mrmovq rA rB d =>
    obtain ⟨a, b, rfl, rfl⟩ := exists_regs_of_wellFormed hw
    exact ⟨_, .mrmovq a b d (hb _ _ rfl)⟩
  | addq => exact exists_completes_alu (p := (.add, .addq)) (by simp [aluRows]) s hw
  | subq => exact exists_completes_alu (p := (.sub, .subq)) (by simp [aluRows]) s hw
  | andq => exact exists_completes_alu (p := (.and, .andq)) (by simp [aluRows]) s hw
  | xorq => exact exists_completes_alu (p := (.xor, .xorq)) (by simp [aluRows]) s hw
  | jmp dest => exact ⟨_, .jump (p := (.always, .jmp)) (by simp [jumpRows]) dest s⟩
  | jle dest => exact ⟨_, .jump (p := (.le, .jle)) (by simp [jumpRows]) dest s⟩
  | jl dest => exact ⟨_, .jump (p := (.l, .jl)) (by simp [jumpRows]) dest s⟩
  | je dest => exact ⟨_, .jump (p := (.e, .je)) (by simp [jumpRows]) dest s⟩
  | jne dest => exact ⟨_, .jump (p := (.ne, .jne)) (by simp [jumpRows]) dest s⟩
  | jge dest => exact ⟨_, .jump (p := (.ge, .jge)) (by simp [jumpRows]) dest s⟩
  | jg dest => exact ⟨_, .jump (p := (.g, .jg)) (by simp [jumpRows]) dest s⟩
  | call dest => exact ⟨_, .call dest (hb _ _ rfl)⟩
  | ret => exact ⟨_, .ret (hb _ _ rfl)⟩
  | pushq rA fill =>
    obtain ⟨a, rfl⟩ := exists_reg_of_wellFormed hw
    exact ⟨_, .pushq a fill (hb _ _ rfl)⟩
  | popq rA fill =>
    obtain ⟨a, rfl⟩ := exists_reg_of_wellFormed hw
    exact ⟨_, .popq a fill (hb _ _ rfl)⟩

/-! ## Raising -/

theorem withReg_of_missing {rA : RegSpec} {s : State} {k : Reg → Result} (h : [rA].all Option.isSome = false) :
    withReg rA s k = .next (s.setStatus .invalidInstruction) := by
  cases rA with
  | none => rfl
  | some a => simp at h

theorem withRegs_of_missing {rA rB : RegSpec} {s : State} {k : Reg → Reg → Result}
    (h : [rA, rB].all Option.isSome = false) : withRegs rA rB s k = .next (s.setStatus .invalidInstruction) := by
  cases rA with
  | none => rfl
  | some a => exact withReg_of_missing (rA := rB) h

/-- Settles O19: every instruction that requires registers asks `withReg` or `withRegs` for them first. -/
theorem missingRegisterRaises : Obligations.MissingRegisterRaises := by
  intro i s hw
  cases i with
  | rrmovq | cmovle | cmovl | cmove | cmovne | cmovge | cmovg | rmmovq | mrmovq | addq | subq | andq | xorq =>
    exact withRegs_of_missing hw
  | irmovq | pushq | popq => exact withReg_of_missing hw
  | halt | nop | ret | jmp | jle | jl | je | jne | jge | jg | call => simp [Instr.wellFormed, Instr.required] at hw

/-- The six instructions that access memory, with their addresses (R161). -/
theorem dataAccess_cases {i : Instr} {s : State} {addr : Word} {st : Bool} (h : dataAccess i s = some (addr, st)) :
    (∃ a b d, i = .rmmovq (some a) (some b) d ∧ addr = effAddr s b d ∧ st = true) ∨
    (∃ a b d, i = .mrmovq (some a) (some b) d ∧ addr = effAddr s b d ∧ st = false) ∨
    (∃ a x, i = .pushq (some a) x ∧ addr = pushAddr s ∧ st = true) ∨
    (∃ d, i = .call d ∧ addr = pushAddr s ∧ st = true) ∨
    (∃ a x, i = .popq (some a) x ∧ addr = popAddr s ∧ st = false) ∨
    (i = .ret ∧ addr = popAddr s ∧ st = false) := by
  cases i with
  | rmmovq rA rB d =>
    cases rA <;> cases rB <;> cases h
    exact .inl ⟨_, _, d, rfl, rfl, rfl⟩
  | mrmovq rA rB d =>
    cases rA <;> cases rB <;> cases h
    exact .inr (.inl ⟨_, _, d, rfl, rfl, rfl⟩)
  | pushq rA x =>
    cases rA <;> cases h
    exact .inr (.inr (.inl ⟨_, x, rfl, rfl, rfl⟩))
  | call d =>
    cases h
    exact .inr (.inr (.inr (.inl ⟨d, rfl, rfl, rfl⟩)))
  | popq rA x =>
    cases rA <;> cases h
    exact .inr (.inr (.inr (.inr (.inl ⟨_, x, rfl, rfl, rfl⟩))))
  | ret =>
    cases h
    exact .inr (.inr (.inr (.inr (.inr ⟨rfl, rfl, rfl⟩))))
  | halt | nop | rrmovq | cmovle | cmovl | cmove | cmovne | cmovge | cmovg | irmovq | addq | subq | andq | xorq
  | jmp | jle | jl | je | jne | jge | jg => cases h

/-- Settles O20: each of the six accesses is a `memRead`, a `memWrite`, a `push` or a `pop` at the address. -/
theorem outOfBoundsAccessRaises : Obligations.OutOfBoundsAccessRaises := by
  intro i s addr st ha hlt
  rcases dataAccess_cases ha with ⟨a, b, d, rfl, rfl, _⟩ | ⟨a, b, d, rfl, rfl, _⟩ | ⟨a, x, rfl, rfl, _⟩ |
    ⟨d, rfl, rfl, _⟩ | ⟨a, x, rfl, rfl, _⟩ | ⟨rfl, rfl, _⟩
  · simp [exec, execRmmovq, memWrite_error hlt]
  · simp [exec, execMrmovq, memRead_error hlt]
  · simp [exec, execPushq, push, memWrite_error hlt]
  · simp [exec, execCall, push, memWrite_error hlt]
  · simp [exec, execPopq, pop, memRead_error hlt]
  · simp [exec, execRet, pop, memRead_error hlt]

/-! ## Every execution -/

/-- What executing an instruction can do, in the order of R164: a required register is missing, the data access is out
of bounds, or it completes. -/
theorem exec_cases (i : Instr) (s : State) :
    (i.wellFormed = false ∧ exec i s = .next (s.setStatus .invalidInstruction)) ∨
    (∃ addr st, dataAccess i s = some (addr, st) ∧ s.cfg.memSize < addr.toNat + 8 ∧
      exec i s = .next (s.setStatus .invalidAddress)) ∨
    ∃ t, Completes i s t ∧ exec i s = .next t := by
  cases hw : i.wellFormed with
  | false => exact .inl ⟨rfl, missingRegisterRaises i s hw⟩
  | true =>
    refine .inr ?_
    by_cases hb : AccessInBounds i s
    · obtain ⟨t, ht⟩ := exists_completes hw hb
      exact .inr ⟨t, ht, exec_of_completes ht⟩
    · simp only [AccessInBounds, not_forall, Nat.not_le] at hb
      obtain ⟨addr, st, ha, hlt⟩ := hb
      exact .inl ⟨addr, st, ha, hlt, outOfBoundsAccessRaises i s addr st ha hlt⟩

/-- The same for a known answer: an exception changes the status alone. -/
theorem completes_of_exec {i : Instr} {s t : State} (h : exec i s = .next t) :
    Completes i s t ∨ (∃ e : Exc, t = s.setStatus e.status) := by
  rcases exec_cases i s with ⟨_, he⟩ | ⟨_, _, _, _, he⟩ | ⟨t', ht, he⟩ <;>
    obtain rfl := Host.Outcome.next.inj (he.symm.trans h)
  · exact .inr ⟨.invalidInstruction, rfl⟩
  · exact .inr ⟨.invalidAddress, rfl⟩
  · exact .inl ht

end Sys2Proof.Machine

/-! SUPPORT. What a completed instruction leaves: the status, the parameters, the registers, the memory, the flags and
the program counter, each said once (`spec/10_state.md` R13, R15; `spec/20_memory.md` R37). -/

namespace Sys2Proof.Machine

/-! ## The rows of opcodes 2, 6 and 7 in the tables of the whole-machine rules -/

theorem moveRows_ne_halt : ∀ p ∈ moveRows, ∀ rA rB, p.2 rA rB ≠ .halt := by simp [moveRows]

theorem aluRows_ne_halt : ∀ p ∈ aluRows, ∀ rA rB, p.2 rA rB ≠ .halt := by simp [aluRows]

theorem jumpRows_ne_halt : ∀ p ∈ jumpRows, ∀ dest, p.2 dest ≠ .halt := by simp [jumpRows]

theorem writes_of_moveRows : ∀ p ∈ moveRows, ∀ a b : Reg, writes (p.2 (some a) (some b)) = [b] := by
  simp [moveRows, writes]

theorem writes_of_aluRows : ∀ p ∈ aluRows, ∀ a b : Reg, writes (p.2 (some a) (some b)) = [b] := by
  simp [aluRows, writes]

theorem dataAccess_of_moveRows : ∀ p ∈ moveRows, ∀ rA rB s, dataAccess (p.2 rA rB) s = none := by
  simp [moveRows, dataAccess]

theorem dataAccess_of_aluRows : ∀ p ∈ aluRows, ∀ rA rB s, dataAccess (p.2 rA rB) s = none := by
  simp [aluRows, dataAccess]

theorem dataAccess_of_jumpRows : ∀ p ∈ jumpRows, ∀ dest s, dataAccess (p.2 dest) s = none := by
  simp [jumpRows, dataAccess]

/-! ## A conditional register write changes registers only -/

@[simp] theorem ite_setReg_cfg (c : Bool) (s : State) (b : Reg) (v : Word) :
    (if c then s.setReg b v else s).cfg = s.cfg := by cases c <;> rfl

@[simp] theorem ite_setReg_flags (c : Bool) (s : State) (b : Reg) (v : Word) :
    (if c then s.setReg b v else s).flags = s.flags := by cases c <;> rfl

@[simp] theorem ite_setReg_status (c : Bool) (s : State) (b : Reg) (v : Word) :
    (if c then s.setReg b v else s).status = s.status := by cases c <;> rfl

@[simp] theorem ite_setReg_mem (c : Bool) (s : State) (b : Reg) (v : Word) :
    (if c then s.setReg b v else s).mem = s.mem := by cases c <;> rfl

theorem ite_setReg_reg_ne (c : Bool) (s : State) {b r : Reg} (v : Word) (h : r ≠ b) :
    (if c then s.setReg b v else s).reg r = s.reg r := by cases c <;> simp [h]

/-! ## The fields after a completed instruction -/

theorem Completes.status {i : Instr} {s t : State} (h : Completes i s t) :
    t.status = if i = .halt then .halted else s.status := by
  cases h with
  | move hp => simp [moveRows_ne_halt _ hp]
  | alu hp => simp [aluRows_ne_halt _ hp]
  | jump hp => simp [jumpRows_ne_halt _ hp]
  | _ => simp

theorem Completes.cfg {i : Instr} {s t : State} (h : Completes i s t) : t.cfg = s.cfg := by
  cases h <;> simp

/-- A store to the address that `dataAccess` says, or memory as it was. -/
theorem Completes.mem {i : Instr} {s t : State} (h : Completes i s t) :
    (∃ addr v, dataAccess i s = some (addr, true) ∧ addr.toNat + 8 ≤ s.cfg.memSize ∧
      t.mem = s.mem.writeWord addr.toNat v) ∨
    ((∀ addr, dataAccess i s ≠ some (addr, true)) ∧ t.mem = s.mem) := by
  cases h with
  | rmmovq _ _ _ h | call _ h | pushq _ _ h => exact .inl ⟨_, _, rfl, h, rfl⟩
  | move hp => exact .inr ⟨by simp [dataAccess_of_moveRows _ hp], by simp⟩
  | alu hp => exact .inr ⟨by simp [dataAccess_of_aluRows _ hp], by simp⟩
  | jump hp => exact .inr ⟨by simp [dataAccess_of_jumpRows _ hp], by simp⟩
  | halt | nop | irmovq | mrmovq | ret | popq => exact .inr ⟨by simp [dataAccess], by simp⟩

theorem Completes.flags {i : Instr} {s t : State} (h : Completes i s t) :
    t.flags = s.flags ∨ ∃ r overflow, t.flags = resultFlags r overflow := by
  cases h with
  | alu => exact .inr ⟨_, _, rfl⟩
  | _ => exact .inl (by simp)

theorem Completes.sameRegsBut {i : Instr} {s t : State} (h : Completes i s t) : SameRegsBut (writes i) s t := by
  intro r hr
  cases h with
  | move hp a b =>
    rw [writes_of_moveRows _ hp, List.mem_singleton] at hr
    exact ite_setReg_reg_ne _ s _ hr
  | alu hp a b =>
    rw [writes_of_aluRows _ hp, List.mem_singleton] at hr
    exact State.reg_setReg_ne s _ hr
  | irmovq | mrmovq | call | ret | pushq =>
    simp only [writes, Option.toList_some, List.mem_singleton] at hr
    exact State.reg_setReg_ne _ _ hr
  | popq =>
    simp only [writes, Option.toList_some, List.mem_cons, List.not_mem_nil, or_false, not_or] at hr
    obtain ⟨hrsp, ha⟩ := hr
    exact (popInto_reg_ne _ _ ha).trans (State.reg_setReg_ne s _ hrsp)
  | halt | nop | jump | rmmovq => rfl

/-- The next `pc` of R15's table. -/
def nextPc (i : Instr) (s : State) : Word :=
  match i with
  | .jmp dest => dest
  | .jle dest => if condHolds .le s.flags then dest else s.valP .D
  | .jl dest => if condHolds .l s.flags then dest else s.valP .D
  | .je dest => if condHolds .e s.flags then dest else s.valP .D
  | .jne dest => if condHolds .ne s.flags then dest else s.valP .D
  | .jge dest => if condHolds .ge s.flags then dest else s.valP .D
  | .jg dest => if condHolds .g s.flags then dest else s.valP .D
  | .call dest => dest
  | .ret => s.mem.readWord (popAddr s).toNat
  | .halt => s.pc
  | _ => s.valP i.op.format

theorem Completes.pc {i : Instr} {s t : State} (h : Completes i s t) : t.pc = nextPc i s := by
  cases h with
  | move hp =>
    simp only [moveRows, List.mem_cons, List.not_mem_nil, or_false] at hp
    rcases hp with rfl | rfl | rfl | rfl | rfl | rfl | rfl <;> rfl
  | alu hp =>
    simp only [aluRows, List.mem_cons, List.not_mem_nil, or_false] at hp
    rcases hp with rfl | rfl | rfl | rfl <;> rfl
  | jump hp =>
    simp only [jumpRows, List.mem_cons, List.not_mem_nil, or_false] at hp
    rcases hp with rfl | rfl | rfl | rfl | rfl | rfl | rfl <;> rfl
  | _ => rfl

end Sys2Proof.Machine

/-! SUPPORT. The whole-machine rules of one step (`spec/10_state.md` R13, R15; `spec/60_exceptions.md` R160 to R165). -/

namespace Sys2Proof.Machine

/-! ## One instruction -/

theorem exists_exec (i : Instr) (s : State) : ∃ t, exec i s = .next t := by
  rcases exec_cases i s with ⟨_, h⟩ | ⟨_, _, _, _, h⟩ | ⟨_, _, h⟩ <;> exact ⟨_, h⟩

/-- Settles O21: what completes has the status that `Completes` says. -/
theorem everyInstructionCompletes : Obligations.EveryInstructionCompletes := by
  intro i s hw hb
  obtain ⟨t, ht⟩ := exists_completes hw hb
  exact ⟨t, exec_of_completes ht, ht.status⟩

/-- Settles O23: an exception writes no register, a completed instruction only those of its row. -/
theorem registerWriters : Obligations.RegisterWriters := by
  intro i s t h
  rcases completes_of_exec h with ht | ⟨e, rfl⟩
  · exact ht.sameRegsBut
  · exact fun _ _ => rfl

theorem sameMem_of_mem_eq {s t : State} (h : t.mem = s.mem) : SameMem s t := fun n => congrArg (·.read n) h

theorem sameMemOutside_of_mem_eq {s t : State} {addr v : Word} (hwf : s.mem.wf = true)
    (h : t.mem = s.mem.writeWord addr.toNat v) : SameMemOutside addr s t := fun _ hn => by
  rw [h, Memory.read_writeWord_outside v hwf hn]

/-- Settles O24: a completed instruction stores one word at the address of its data access or leaves memory as it was,
and an exception leaves it as it was. -/
theorem memoryWriters : Obligations.MemoryWriters := by
  intro i s t hwf h
  have hkeeps : t.mem = s.mem → (∀ addr, dataAccess i s = some (addr, true) → SameMemOutside addr s t) ∧
      ((∀ addr, dataAccess i s ≠ some (addr, true)) → SameMem s t) :=
    fun hm => ⟨fun _ _ n _ => sameMem_of_mem_eq hm n, fun _ => sameMem_of_mem_eq hm⟩
  rcases completes_of_exec h with ht | ⟨e, rfl⟩
  case inr => exact hkeeps rfl
  case inl =>
    rcases ht.mem with ⟨addr, v, ha, _, hm⟩ | ⟨_, hm⟩
    case inr => exact hkeeps hm
    case inl =>
      refine ⟨fun addr' ha' => ?_, fun hn => absurd ha (hn addr)⟩
      obtain ⟨rfl, _⟩ := Prod.mk.inj (Option.some.inj (ha.symm.trans ha'))
      exact sameMemOutside_of_mem_eq hwf hm

theorem Exc.status_ne_running (e : Exc) : e.status ≠ .running := by cases e <;> exact nofun

/-- Settles O25: an exception and `halt` leave `pc`; any other completed instruction sets it as R15's table says. -/
theorem nextProgramCounter : Obligations.NextProgramCounter := by
  intro i s t hr h
  rcases completes_of_exec h with ht | ⟨e, rfl⟩
  case inr => exact ⟨fun _ => rfl, fun he => absurd he e.status_ne_running⟩
  case inl =>
    have hstatus := ht.status
    by_cases hi : i = .halt
    · subst hi
      exact ⟨fun _ => ht.pc, fun hrun => absurd (hrun.symm.trans hstatus) nofun⟩
    · rw [if_neg hi, hr] at hstatus
      refine ⟨fun hn => absurd hstatus hn, fun _ => ht.pc.trans ?_⟩
      cases i with
      | halt => exact absurd rfl hi
      | _ => rfl

/-! ## One step -/

/-- What a step can do: nothing in a terminal status; raise an exception, which changes the status alone; or run the
fetched instruction to its end. -/
theorem step_cases {s t : State} (h : step s = .next t) :
    (s.status ≠ .running ∧ t = s) ∨ (s.status = .running ∧ ∃ e : Exc, t = s.setStatus e.status) ∨
    (s.status = .running ∧ ∃ i, fetch s = .ok i ∧ Completes i s t) := by
  by_cases hr : s.status = .running
  case neg => exact .inl ⟨hr, (Host.Outcome.next.inj ((step_terminal hr).symm.trans h)).symm⟩
  case pos =>
    cases hf : fetch s with
    | error e => exact .inr (.inl ⟨hr, e, (Host.Outcome.next.inj ((step_of_fetch_error hr hf).symm.trans h)).symm⟩)
    | ok i =>
      rcases completes_of_exec ((step_of_fetch_ok hr hf).symm.trans h) with ht | he
      · exact .inr (.inr ⟨hr, i, rfl, ht⟩)
      · exact .inr (.inl ⟨hr, he⟩)

theorem exists_step (s : State) : ∃ t, step s = .next t := by
  by_cases hr : s.status = .running
  case neg => exact ⟨s, step_terminal hr⟩
  case pos =>
    cases hf : fetch s with
    | error e => exact ⟨_, step_of_fetch_error hr hf⟩
    | ok i => exact step_of_fetch_ok hr hf ▸ exists_exec i s

/-- Settles O11: a terminal status stays, an exception of the fetch is raised, and `exec` always answers. -/
theorem everyStepAnswersANextState : Obligations.EveryStepAnswersANextState := exists_step

/-- Settles O14: a step that ends in a fault status has raised an exception, since what completes runs on or halts. -/
theorem faultingStepChangesOnlyStatus : Obligations.FaultingStepChangesOnlyStatus := by
  intro s t hr h hfault
  rcases step_cases h with ⟨hn, _⟩ | ⟨_, e, rfl⟩ | ⟨_, i, _, ht⟩
  · exact absurd hr hn
  · rfl
  · rw [ht.status, hr] at hfault
    split at hfault <;> simp at hfault

/-- Settles O26: an exception writes the status only, and no completed instruction writes the parameters. -/
theorem parametersNeverChange : Obligations.ParametersNeverChange := by
  intro s t h
  rcases step_cases h with ⟨_, rfl⟩ | ⟨_, e, rfl⟩ | ⟨_, i, _, ht⟩
  · rfl
  · rfl
  · exact ht.cfg

/-- Settles O12: `step` and the run loop both stop at a terminal status. -/
theorem terminalStatusIsFinal : Obligations.TerminalStatusIsFinal := fun _ budget h =>
  ⟨step_terminal h, runFrom_terminal h budget 0⟩

/-! ## The checks of one step and their order (R161, R164) -/

theorem step_of_le {s : State} (hr : s.status = .running) (h : s.cfg.memSize ≤ s.pc.toNat) :
    step s = .next (s.setStatus .invalidAddress) :=
  step_of_fetch_error hr (fetch_of_le h)

theorem step_of_truncated {s : State} {op : Op} (hr : s.status = .running) (h : s.pc.toNat < s.cfg.memSize)
    (ho : s.mem.read s.pc.toNat = op.byte) (hl : s.cfg.memSize < s.pc.toNat + op.format.length) :
    step s = .next (s.setStatus .invalidAddress) :=
  step_of_fetch_error hr (fetch_of_truncated h ho hl)

theorem step_of_access_outOfBounds {s : State} {i : Instr} {addr : Word} {st : Bool} (hr : s.status = .running)
    (hf : fetch s = .ok i) (ha : dataAccess i s = some (addr, st)) (hlt : s.cfg.memSize < addr.toNat + 8) :
    step s = .next (s.setStatus .invalidAddress) :=
  (step_of_fetch_ok hr hf).trans (outOfBoundsAccessRaises i s addr st ha hlt)

theorem Completes.running_or_halted {i : Instr} {s t : State} (hr : s.status = .running) (h : Completes i s t) :
    t.status = .running ∨ t.status = .halted := by
  rw [h.status, hr]
  split
  · exact .inr rfl
  · exact .inl rfl

/-- Settles O16: the fetch's three checks decide in their order, then the instruction's two; past them it completes. -/
theorem orderOfChecks : Obligations.OrderOfChecks := by
  intro s hr
  refine ⟨step_of_le hr, fun hpc => ⟨fun hv => ?unrecognised, fun F hv hF => ?recognised⟩⟩
  case unrecognised => exact step_of_fetch_error hr (fetch_of_opOfByte_eq_none hpc (opOfByte_eq_none.2 hv))
  case recognised =>
    obtain ⟨op, ho, rfl⟩ := exists_op_of_validOp hv hF
    refine ⟨step_of_truncated hr hpc ho, fun hl => ?_⟩
    obtain ⟨i, hf, rfl⟩ := exists_fetch_eq_ok ho hl
    have hdecode : decode (s.mem.readBytes s.pc.toNat i.length) = .ok i [] :=
      decode_of_encode_eq (fetch_eq_ok_iff.1 hf).2.symm
    refine ⟨i, hdecode, fun hw => ?missing, fun hw => ⟨fun addr st ha => ?outOfBounds, fun hb => ?completes⟩⟩
    case missing => exact (step_of_fetch_ok hr hf).trans (missingRegisterRaises i s hw)
    case outOfBounds => exact step_of_access_outOfBounds hr hf ha
    case completes =>
      obtain ⟨t, ht⟩ := exists_completes hw hb
      exact ⟨t, (step_of_fetch_ok hr hf).trans (exec_of_completes ht), ht.running_or_halted hr⟩

/-- A running machine goes to InvalidAddress exactly where `pc` lies outside memory, a byte of the row at `pc` does, or
the data access of the fetched instruction does. -/
theorem step_invalidAddress_iff {s t : State} (hr : s.status = .running) (h : step s = .next t) :
    t.status = .invalidAddress ↔
      s.cfg.memSize ≤ s.pc.toNat ∨
      (∃ op : Op, s.pc.toNat < s.cfg.memSize ∧ s.mem.read s.pc.toNat = op.byte ∧
        s.cfg.memSize < s.pc.toNat + op.format.length) ∨
      ∃ i addr st, fetch s = .ok i ∧ dataAccess i s = some (addr, st) ∧ s.cfg.memSize < addr.toNat + 8 := by
  constructor
  · intro hinv
    rcases fetch_cases s with ⟨hpc, _⟩ | ⟨_, _, hf⟩ | ⟨op, hpc, ho, hl, _⟩ | ⟨i, hf⟩
    · exact .inl hpc
    · rw [raise_status ((step_of_fetch_error hr hf).symm.trans h)] at hinv
      exact nomatch hinv
    · exact .inr (.inl ⟨op, hpc, ho, hl⟩)
    · rw [step_of_fetch_ok hr hf] at h
      rcases exec_cases i s with ⟨_, he⟩ | ⟨addr, st, ha, hlt, _⟩ | ⟨t', ht, he⟩
      · obtain rfl := Host.Outcome.next.inj (he.symm.trans h)
        exact nomatch hinv
      · exact .inr (.inr ⟨i, addr, st, hf, ha, hlt⟩)
      · obtain rfl := Host.Outcome.next.inj (he.symm.trans h)
        rcases ht.running_or_halted hr with hs | hs <;> exact nomatch hs.symm.trans hinv
  · intro hcause
    have hstep : step s = .next (s.setStatus .invalidAddress) := by
      rcases hcause with hpc | ⟨op, hpc, ho, hl⟩ | ⟨i, addr, st, hf, ha, hlt⟩
      · exact step_of_le hr hpc
      · exact step_of_truncated hr hpc ho hl
      · exact step_of_access_outOfBounds hr hf ha hlt
    rw [← Host.Outcome.next.inj (hstep.symm.trans h), State.setStatus_status]

/-- The formats longer than one byte (R54). -/
theorem Format.length_mem_of_ne_one {F : Format} (h : F.length ≠ 1) : F.length ∈ [2, 9, 10] := by
  cases F with
  | O => exact absurd rfl h
  | R | D | I => decide

/-- Settles O15: `step_invalidAddress_iff`, the row at `pc` told by R55 and R57 and the data accesses one by one. -/
theorem causesOfInvalidAddress : Obligations.CausesOfInvalidAddress := by
  rintro s t N rfl hr h
  rw [step_invalidAddress_iff hr h]
  constructor
  · rintro (hpc | ⟨op, hpc, ho, hl⟩ | ⟨i, addr, st, hf, ha, hlt⟩)
    · exact .inl (by omega)
    · refine .inr (.inl ⟨by omega, op.format, ?_, ?_, Format.length_mem_of_ne_one (by omega), by omega⟩)
      · rw [ho, ← opOfByte_isSome, opOfByte_byte, Option.isSome_some]
      · rw [ho, op.formatOf_byte]
    · have hlt' : (addr.toNat : Int) + 7 > s.cfg.memSize - 1 := by omega
      refine .inr (.inr ?_)
      rcases dataAccess_cases ha with ⟨a, b, d, rfl, rfl, _⟩ | ⟨a, b, d, rfl, rfl, _⟩ | ⟨a, x, rfl, rfl, _⟩ |
        ⟨d, rfl, rfl, _⟩ | ⟨a, x, rfl, rfl, _⟩ | ⟨rfl, rfl, _⟩
      · exact .inl ⟨a, b, d, hf, hlt'⟩
      · exact .inr (.inl ⟨a, b, d, hf, hlt'⟩)
      · exact .inr (.inr (.inl ⟨a, x, hf, hlt'⟩))
      · exact .inr (.inr (.inr (.inl ⟨d, hf, hlt'⟩)))
      · exact .inr (.inr (.inr (.inr (.inl ⟨a, x, hf, hlt'⟩))))
      · exact .inr (.inr (.inr (.inr (.inr ⟨hf, hlt'⟩))))
  · have access {i : Instr} {addr : Word} {st : Bool} (hf : fetch s = .ok i) (ha : dataAccess i s = some (addr, st))
        (hlt : (addr.toNat : Int) + 7 > s.cfg.memSize - 1) :
        ∃ i addr st, fetch s = .ok i ∧ dataAccess i s = some (addr, st) ∧ s.cfg.memSize < addr.toNat + 8 :=
      ⟨i, addr, st, hf, ha, by omega⟩
    rintro (hpc | ⟨hpc, F, hv, hF, _, hl⟩ | hdata)
    · exact .inl (by omega)
    · obtain ⟨op, ho, rfl⟩ := exists_op_of_validOp hv hF
      exact .inr (.inl ⟨op, by omega, ho, by omega⟩)
    · refine .inr (.inr ?_)
      rcases hdata with ⟨a, b, d, hf, hlt⟩ | ⟨a, b, d, hf, hlt⟩ | ⟨a, x, hf, hlt⟩ | ⟨d, hf, hlt⟩ | ⟨a, x, hf, hlt⟩ |
        ⟨hf, hlt⟩
      all_goals exact access hf rfl hlt

end Sys2Proof.Machine

/-! SUPPORT. The invariant along steps and runs (`spec/10_state.md` section 8, `spec/20_memory.md` R39, `spec/43_alu.md`
R126), Reset and Load (R24, R183). -/

namespace Sys2Proof.Machine

/-! ## The invariant -/

/-- The invariant speaks of the parameters, the memory and the flags only. -/
theorem State.Inv.of_eq {s t : State} (h : s.Inv) (hcfg : t.cfg = s.cfg) (hmem : t.mem = s.mem)
    (hflags : t.flags = s.flags) : t.Inv := by
  rwa [State.Inv, hcfg, hmem, hflags]

/-- A result is not both zero and negative (R99, R126). -/
theorem resultFlags_exclusive (r : Word) (overflow : Bool) :
    ¬ ((resultFlags r overflow).ZF = true ∧ (resultFlags r overflow).SF = true) := by
  rintro ⟨hz, hs⟩
  obtain rfl : r = 0 := beq_iff_eq.1 hz
  exact nomatch hs

theorem Completes.keeps_inv {i : Instr} {s t : State} (h : Completes i s t) (hs : s.Inv) : t.Inv := by
  obtain ⟨hcfg, hwf, hbelow, hzs⟩ := hs
  have hmem : t.mem.wf = true ∧ t.mem.below s.cfg.memSize = true := by
    rcases h.mem with ⟨addr, v, _, hb, hm⟩ | ⟨_, hm⟩
    · rw [hm]
      exact ⟨Memory.wf_writeWord _ v hwf, Memory.below_writeBytes _ hbelow (by rwa [length_wordBytes])⟩
    · rw [hm]
      exact ⟨hwf, hbelow⟩
  have hflags : ¬ (t.flags.ZF = true ∧ t.flags.SF = true) := by
    rcases h.flags with hf | ⟨r, overflow, hf⟩
    · rwa [hf]
    · rw [hf]
      exact resultFlags_exclusive r overflow
  rw [State.Inv, h.cfg]
  exact ⟨hcfg, hmem.1, hmem.2, hflags⟩

/-- Settles O3: an exception leaves what the invariant speaks of, and a completed instruction stores inside memory, in
canonical form, and writes the flags of one result. -/
theorem stepKeepsTheInvariant : Obligations.StepKeepsTheInvariant := by
  intro s t hs h
  rcases step_cases h with ⟨_, rfl⟩ | ⟨_, e, rfl⟩ | ⟨_, i, _, ht⟩
  · exact hs
  · exact hs.of_eq rfl rfl rfl
  · exact ht.keeps_inv hs

/-! ## The run loop (R172) -/

/-- One more unit of budget: the run has ended, or it takes a step. -/
theorem runFrom_succ_cases (budget n : Nat) (s : State) :
    (s.status ≠ .running ∧ runFrom (budget + 1) n s = .next ⟨s, n⟩) ∨
    ∃ t, s.status = .running ∧ step s = .next t ∧ runFrom (budget + 1) n s = runFrom budget (n + 1) t := by
  by_cases hr : s.status = .running
  · obtain ⟨t, ht⟩ := exists_step s
    exact .inr ⟨t, hr, ht, runFrom_running hr ht budget n⟩
  · exact .inl ⟨hr, runFrom_terminal hr (budget + 1) n⟩

theorem runFrom_keeps_inv {budget n : Nat} {s : State} {r : RunResult} (hs : s.Inv)
    (h : runFrom budget n s = .next r) : r.state.Inv := by
  induction budget generalizing n s with
  | zero =>
    obtain rfl := Host.Outcome.next.inj h
    exact hs
  | succ budget ih =>
    rcases runFrom_succ_cases budget n s with ⟨_, he⟩ | ⟨t, _, ht, he⟩
    · obtain rfl := Host.Outcome.next.inj (he.symm.trans h)
      exact hs
    · exact ih (stepKeepsTheInvariant s t hs ht) (he.symm.trans h)

/-- Settles O4: by induction on the budget, from O3. -/
theorem runKeepsTheInvariant : Obligations.RunKeepsTheInvariant := fun _ _ _ hs h => runFrom_keeps_inv hs h

theorem exists_runFrom (budget n : Nat) (s : State) :
    ∃ r, runFrom budget n s = .next r ∧ r.steps ≤ n + budget := by
  induction budget generalizing n s with
  | zero => exact ⟨⟨s, n⟩, rfl, Nat.le_refl n⟩
  | succ budget ih =>
    rcases runFrom_succ_cases budget n s with ⟨_, he⟩ | ⟨t, _, _, he⟩
    · exact ⟨⟨s, n⟩, he, Nat.le_add_right n _⟩
    · obtain ⟨r, hr, hle⟩ := ih (n + 1) t
      exact ⟨r, he.trans hr, by omega⟩

/-- The steps already counted are added to the count of the run. -/
theorem runFrom_add_steps {budget n : Nat} {s : State} {r : RunResult} (k : Nat)
    (h : runFrom budget n s = .next r) : runFrom budget (n + k) s = .next ⟨r.state, r.steps + k⟩ := by
  induction budget generalizing n s with
  | zero =>
    obtain rfl := Host.Outcome.next.inj h
    rfl
  | succ budget ih =>
    rcases runFrom_succ_cases budget n s with ⟨hr, he⟩ | ⟨t, hr, ht, he⟩
    · obtain rfl := Host.Outcome.next.inj (he.symm.trans h)
      exact runFrom_terminal hr ..
    · rw [runFrom_running hr ht, Nat.add_right_comm]
      exact ih (he.symm.trans h)

/-- A run along the states `path`, `n` steps already counted, answers a state of the path at the place of its count,
after running states only, and stops early only at a terminal status. -/
theorem runFrom_along_path {path : Nat → State} (hpath : ∀ k, step (path k) = .next (path (k + 1)))
    {budget n : Nat} {r : RunResult} (h : runFrom budget n (path n) = .next r) :
    r.state = path r.steps ∧ r.steps ≤ n + budget ∧ (∀ k, n ≤ k → k < r.steps → (path k).status = .running) ∧
      (r.steps < n + budget → (path r.steps).status ≠ .running) := by
  induction budget generalizing n with
  | zero =>
    obtain rfl := Host.Outcome.next.inj h
    exact ⟨rfl, Nat.le_refl n, fun k hk hlt => absurd hlt (Nat.not_lt.2 hk), fun hlt => absurd hlt (Nat.lt_irrefl n)⟩
  | succ budget ih =>
    rcases runFrom_succ_cases budget n (path n) with ⟨hn, he⟩ | ⟨t, hr, ht, he⟩
    · obtain rfl := Host.Outcome.next.inj (he.symm.trans h)
      exact ⟨rfl, Nat.le_add_right n _, fun k hk hlt => absurd hlt (Nat.not_lt.2 hk), fun _ => hn⟩
    · obtain rfl := Host.Outcome.next.inj (ht.symm.trans (hpath n))
      obtain ⟨hstate, hle, hrunning, hearly⟩ := ih (he.symm.trans h)
      refine ⟨hstate, by omega, fun k hk hlt => ?_, fun hlt => hearly (by omega)⟩
      rcases Nat.eq_or_lt_of_le hk with rfl | hk
      · exact hr
      · exact hrunning k hk hlt

theorem RunResult.outOfBudget_iff (r : RunResult) : r.outOfBudget = true ↔ r.state.status = .running :=
  beq_iff_eq

/-- Settles O54: by `runFrom_along_path`; a run that answers Running has not stopped early, so it took all of the
budget. -/
theorem runEndsByBudgetOrTerminalStatus : Obligations.RunEndsByBudgetOrTerminalStatus := by
  refine ⟨fun budget s => ?bounded, fun budget path r hpath h => ?path, fun n s t r hr ht h => ?oneMore⟩
  case bounded =>
    obtain ⟨r, h, hle⟩ := exists_runFrom budget 0 s
    exact ⟨r, h, Nat.zero_add budget ▸ hle⟩
  case path =>
    obtain ⟨hstate, hle, hrunning, hearly⟩ := runFrom_along_path hpath h
    rw [Nat.zero_add] at hle hearly
    refine ⟨hstate, fun k => hrunning k (Nat.zero_le k), hearly, ?_⟩
    rw [RunResult.outOfBudget_iff, hstate]
    constructor
    · intro hend k hk
      have hall : r.steps = budget := Nat.le_antisymm hle (Nat.not_lt.1 fun hlt => hearly hlt hend)
      rcases Nat.eq_or_lt_of_le hk with rfl | hlt
      · rwa [hall] at hend
      · exact hrunning k (Nat.zero_le k) (by omega)
    · exact fun hall => hall r.steps hle
  case oneMore =>
    rw [run, runFrom_running hr ht]
    exact runFrom_add_steps 1 h

theorem runFrom_add {m n c : Nat} {s : State} {r r' : RunResult} (h : runFrom m c s = .next r)
    (h' : runFrom n r.steps r.state = .next r') : runFrom (m + n) c s = .next r' := by
  induction m generalizing c s with
  | zero =>
    obtain rfl := Host.Outcome.next.inj h
    rwa [Nat.zero_add]
  | succ m ih =>
    rcases runFrom_succ_cases m c s with ⟨hn, he⟩ | ⟨t, hr, ht, he⟩
    · obtain rfl := Host.Outcome.next.inj (he.symm.trans h)
      rwa [runFrom_terminal hn] at h' ⊢
    · rw [Nat.add_right_comm, runFrom_running hr ht]
      exact ih (he.symm.trans h)

/-- Settles O55: the second run continues the loop of the first, with the first's steps already counted. -/
theorem runsCompose : Obligations.RunsCompose := by
  intro m n s r r' h h'
  have hcont : runFrom n r.steps r.state = .next ⟨r'.state, r'.steps + r.steps⟩ := by
    have := runFrom_add_steps r.steps h'
    rwa [Nat.zero_add] at this
  rw [run, runFrom_add h hcont, Nat.add_comm]

/-! ## Reset and Load (R24, R183) -/

/-- Settles O1: the state after Reset is zero field by field, and the zero byte at `pc` is `halt`. -/
theorem resetIsAllZeroAndRunning : Obligations.ResetIsAllZeroAndRunning := by
  intro c
  refine ⟨State.resetWith_reg c, rfl, rfl, rfl, rfl, rfl, fun _ => rfl, fun ⟨hlow, _⟩ => ?_⟩
  have hfetch : fetch (State.resetWith c) = .ok .halt :=
    fetch_eq_ok_iff.2 ⟨show 0 + 1 ≤ c.memSize by omega, rfl⟩
  rw [step_of_fetch_ok rfl hfetch, exec_halt]

theorem resetWith_inv {c : Config} (h : c.Ok) : (State.resetWith c).Inv := ⟨h, rfl, rfl, nofun⟩

/-- Settles O2: empty memory is canonical, and no flag is set. -/
theorem resetMeetsTheInvariant : Obligations.ResetMeetsTheInvariant :=
  ⟨fun _ => resetWith_inv, resetWith_inv (by decide)⟩

/-- An image over empty memory: its bytes, then zeros. -/
theorem Memory.read_writeBytes_nil (img : List Byte) (n : Nat) :
    (Memory.writeBytes [] 0 img).read n = img.getD n 0 := by
  rcases Nat.lt_or_ge n img.length with hn | hn
  · have hread := Memory.read_writeBytes_inside (m := []) (a := 0) img rfl hn
    rw [Nat.zero_add] at hread
    rw [hread, List.getD_eq_getElem _ _ hn]
  · rw [Memory.read_writeBytes_outside img rfl (.inr (by omega)), List.getD_eq_default _ _ hn]
    rfl

/-- Settles O53: an image that fits is stored in empty memory by `writeBytes`. -/
theorem loadPlacesTheImage : Obligations.LoadPlacesTheImage := by
  intro c img hc
  refine ⟨fun hfits => ⟨_, if_pos hfits, Memory.read_writeBytes_nil img, rfl, keepsRest_setMem _ _, ?inv⟩,
    fun hlong => if_neg (Nat.not_le.2 hlong)⟩
  case inv =>
    exact ⟨hc, Memory.wf_writeBytes 0 img rfl, Memory.below_writeBytes img rfl (by rwa [Nat.zero_add]), nofun⟩

end Sys2Proof.Machine

/-! SUPPORT. The open readings of R4: which instructions ask for them (`spec/45_stack_call.md` R152, R153). -/

namespace Sys2Proof.Machine

/-- The machine under other parameters. -/
def State.setCfg (s : State) (c : Config) : State := { s with cfg := c }

@[simp] theorem State.setCfg_flags (s : State) (c : Config) : (s.setCfg c).flags = s.flags := rfl

@[simp] theorem dataAccess_setCfg (i : Instr) (s : State) (c : Config) :
    dataAccess i (s.setCfg c) = dataAccess i s := by
  cases i <;> rfl

theorem pushValue_setCfg (s : State) (c : Config) {a : Reg} (h : a ≠ .rsp) :
    pushValue (s.setCfg c) a = pushValue s a := by
  rw [pushValue, pushValue, if_neg h, if_neg h]
  rfl

/-- What completes under one setting completes alike under any other with the same memory size, unless it is
`pushq %rsp` or `popq %rsp`. -/
theorem Completes.setCfg {i : Instr} {s t : State} {c : Config} (hsize : c.memSize = s.cfg.memSize)
    (hpush : ∀ x, i ≠ .pushq (some .rsp) x) (hpop : ∀ x, i ≠ .popq (some .rsp) x) (h : Completes i s t) :
    Completes i (s.setCfg c) (t.setCfg c) := by
  cases h with
  | halt => exact .halt (s.setCfg c)
  | nop => exact .nop (s.setCfg c)
  | @move p hp a b =>
    have hmove := Completes.move hp a b (s.setCfg c)
    rw [State.setCfg_flags] at hmove
    cases hc : condHolds p.1 s.flags <;>
    · rw [hc] at hmove
      exact hmove
  | irmovq fill b v => exact .irmovq fill b v (s.setCfg c)
  | rmmovq a b d h => exact .rmmovq (s := s.setCfg c) a b d (hsize ▸ h)
  | mrmovq a b d h => exact .mrmovq (s := s.setCfg c) a b d (hsize ▸ h)
  | alu hp a b => exact .alu hp a b (s.setCfg c)
  | jump hp dest => exact .jump hp dest (s.setCfg c)
  | call dest h => exact .call (s := s.setCfg c) dest (hsize ▸ h)
  | ret h => exact .ret (s := s.setCfg c) (hsize ▸ h)
  | pushq a fill h =>
    have hpushq := Completes.pushq (s := s.setCfg c) a fill (hsize ▸ h)
    rw [pushValue_setCfg s c (fun ha => hpush fill (by rw [ha]))] at hpushq
    exact hpushq
  | popq a fill h =>
    have ha : a ≠ .rsp := fun ha => hpop fill (by rw [ha])
    have hpopq := Completes.popq (s := s.setCfg c) a fill (hsize ▸ h)
    rw [popInto_ne _ _ ha] at hpopq ⊢
    exact hpopq

/-- Settles O27: the two checks of an instruction ask for the memory size alone, and of what completes only `pushq %rsp`
and `popq %rsp` ask for an open reading. -/
theorem openReadingsMatterToRspAlone : Obligations.OpenReadingsMatterToRspAlone := by
  intro i s t c hsize hpush hpop h
  rcases exec_cases i s with ⟨hw, he⟩ | ⟨addr, st, ha, hlt, he⟩ | ⟨t', ht, he⟩ <;>
    obtain rfl := Host.Outcome.next.inj (he.symm.trans h)
  · exact missingRegisterRaises i (s.setCfg c) hw
  · exact outOfBoundsAccessRaises i (s.setCfg c) addr st ((dataAccess_setCfg i s c).trans ha) (hsize ▸ hlt)
  · exact exec_of_completes (ht.setCfg hsize hpush hpop)

end Sys2Proof.Machine

/-! SUPPORT. The four instructions of opcode 6, subtraction and its conditions (`spec/43_alu.md` R120 to R130,
`spec/41_moves_and_conditions.md` R90, R99). -/

namespace Sys2Proof.Machine

/-! ## Result, flags and frame (R120, R126) -/

/-- A register write, then flags, then `pc`: memory, status, parameters and every other register stay. -/
theorem computesInto_of_aluRows {p : AluFn × (RegSpec → RegSpec → Instr)} (hp : p ∈ aluRows) :
    ComputesInto p.2 (fun a b => (aluResult p.1 a b).1) (fun a b => (aluResult p.1 a b).2) := by
  intro a b s
  refine ⟨_, exec_of_aluRows hp a b s, ?result, rfl, ?sign, ?zero, rfl, ?registers, rfl, rfl, fun _ => rfl⟩
  case result => simp
  case sign => simpa [aluFlags, resultFlags] using sign_iff_neg _
  case zero => simp [aluFlags, resultFlags]
  case registers => exact fun r hr => State.reg_setReg_ne s _ (by simpa using hr)

theorem subOverflowing_fst (p q : Word) : (subOverflowing p q).1 = p - q := by
  rw [subOverflowing, neg64_eq_neg, BitVec.sub_eq_add_neg]
  rfl

/-- Settles O38: the four rows of R120's table, whose sums wrap as the library's do. -/
theorem aluFollowsTheTable : Obligations.AluFollowsTheTable := by
  refine ⟨computesInto_of_aluRows (p := (.add, .addq)) ?_, computesInto_of_aluRows (p := (.sub, .subq)) ?_,
    computesInto_of_aluRows (p := (.and, .andq)) ?_, computesInto_of_aluRows (p := (.xor, .xorq)) ?_,
    BitVec.toNat_add, fun p q => ?difference⟩
  case difference =>
    rw [subOverflowing_fst, BitVec.toNat_sub]
    congr 1
    omega
  all_goals simp [aluRows]

/-- Settles O42: adding and then subtracting `q` in the ring of words. -/
theorem addThenSubGivesTheOperandBack : Obligations.AddThenSubGivesTheOperandBack := fun p q => by
  rw [subOverflowing_fst]
  exact BitVec.add_sub_cancel p q

/-! ## The overflow of a subtraction (R123, D16) -/

theorem toSigned64_bounds (u : Word) : -(2 ^ 63) ≤ toSigned64 u ∧ toSigned64 u < 2 ^ 63 := by
  rw [toSigned64_eq_toInt]
  exact ⟨u.le_toInt, u.toInt_lt⟩

theorem toSigned64_injective {u v : Word} (h : toSigned64 u = toSigned64 v) : u = v := by
  rw [← toUnsigned64_toSigned64 u, h, toUnsigned64_toSigned64]

/-- The minimum of the signed range is the word `2^63`. -/
theorem toSigned64_eq_min_iff {u : Word} : toSigned64 u = -(2 ^ 63) ↔ u.toNat = 2 ^ 63 := by
  have hlt := u.isLt
  unfold toSigned64
  split <;> omega

theorem toSigned64_neg {q : Word} (h : q.toNat ≠ 2 ^ 63) : toSigned64 (-q) = -toSigned64 q := by
  rw [toSigned64_eq_toInt, toSigned64_eq_toInt]
  apply BitVec.toInt_neg_of_ne_intMin
  intro hmin
  exact h (by rw [hmin]; rfl)

theorem neg_eq_self_of_min {q : Word} (h : q.toNat = 2 ^ 63) : -q = q := by
  obtain rfl : q = 0x8000000000000000 := BitVec.eq_of_toNat_eq h
  rfl

/-- The flag is that of adding the negated subtrahend. -/
theorem subOverflowing_snd_iff (p q : Word) :
    (subOverflowing p q).2 = true ↔
      toSigned64 p + toSigned64 (-q) < -(2 ^ 63) ∨ 2 ^ 63 ≤ toSigned64 p + toSigned64 (-q) := by
  rw [subOverflowing, neg64_eq_neg, addOverflowing_snd_iff_range]

/-- For every subtrahend but `2^63` the flag is signed overflow of the difference. -/
theorem subOverflowing_snd_iff_range {p q : Word} (h : q.toNat ≠ 2 ^ 63) :
    (subOverflowing p q).2 = true ↔
      toSigned64 p - toSigned64 q < -(2 ^ 63) ∨ 2 ^ 63 ≤ toSigned64 p - toSigned64 q := by
  rw [subOverflowing_snd_iff, toSigned64_neg h, Int.sub_eq_add_neg]

/-- For the subtrahend `2^63`, its own negation, the flag is the sign of `p`. -/
theorem subOverflowing_snd_of_min {p q : Word} (h : q.toNat = 2 ^ 63) :
    (subOverflowing p q).2 = true ↔ toSigned64 p < 0 := by
  have hp := toSigned64_bounds p
  rw [subOverflowing_snd_iff, neg_eq_self_of_min h, toSigned64_eq_min_iff.2 h]
  omega

/-- Settles O40: negating the subtrahend negates its signed value, but for the minimum, which is its own negation. -/
theorem subOverflowAndItsCorner : Obligations.SubOverflowAndItsCorner := by
  intro p q
  refine ⟨subOverflowing_fst p q, subOverflowing_snd_iff_range, fun h => ⟨subOverflowing_snd_of_min h, ?_⟩⟩
  have hp := toSigned64_bounds p
  rw [subOverflowing_snd_of_min h, toSigned64_eq_min_iff.2 h]
  omega

/-! ## The conditions after a subtraction (R99) -/

/-- The signed value of a wrapped difference: the difference, brought back into the signed range. -/
theorem toSigned64_sub (p q : Word) :
    (toSigned64 (p - q) = toSigned64 p - toSigned64 q) ∨
    (toSigned64 p - toSigned64 q < -(2 ^ 63) ∧ toSigned64 (p - q) = toSigned64 p - toSigned64 q + 2 ^ 64) ∨
    (2 ^ 63 ≤ toSigned64 p - toSigned64 q ∧ toSigned64 (p - q) = toSigned64 p - toSigned64 q - 2 ^ 64) := by
  have hp := toSigned64_bounds p
  have hq := toSigned64_bounds q
  have hsub : toSigned64 (p - q) = (toSigned64 p - toSigned64 q).bmod (2 ^ 64) := by
    simp only [toSigned64_eq_toInt, BitVec.toInt_sub]
  rw [hsub, Int.bmod_def]
  split <;> omega

/-- The flags that `subq` leaves, from the old `x[rB]` and `x[rA]`. -/
theorem flags_of_subq {a b : Reg} {s t : State} (h : exec (.subq (some a) (some b)) s = .next t) :
    t.flags = aluFlags .sub (s.reg a) (s.reg b) := by
  obtain rfl := Host.Outcome.next.inj
    ((exec_of_aluRows (p := (.sub, .subq)) (by simp [aluRows]) a b s).symm.trans h)
  rfl

theorem aluFlags_sub_ZF (x y : Word) : (aluFlags .sub x y).ZF = true ↔ y = x := by
  simp only [aluFlags, aluResult, resultFlags, subOverflowing_fst, beq_iff_eq]
  exact sub_eq_zero

theorem aluFlags_sub_SF (x y : Word) : (aluFlags .sub x y).SF = true ↔ toSigned64 (y - x) < 0 := by
  simp only [aluFlags, aluResult, resultFlags, subOverflowing_fst, sign_iff_neg]

theorem aluFlags_sub_OF (x y : Word) : (aluFlags .sub x y).OF = (subOverflowing y x).2 := rfl

/-- `SF` and `OF` differ exactly where the minuend is less than a subtrahend other than `2^63`. -/
theorem aluFlags_sub_SF_ne_OF {x y : Word} (h : x.toNat ≠ 2 ^ 63) :
    ((aluFlags .sub x y).SF != (aluFlags .sub x y).OF) = true ↔ toSigned64 y < toSigned64 x := by
  have hx := toSigned64_bounds x
  have hy := toSigned64_bounds y
  have hdiff := toSigned64_bounds (y - x)
  rw [bne_iff_ne, ne_eq, Bool.eq_iff_iff, aluFlags_sub_SF, aluFlags_sub_OF, subOverflowing_snd_iff_range h]
  rcases toSigned64_sub y x with hd | ⟨ho, hd⟩ | ⟨ho, hd⟩ <;> omega

/-- After the subtrahend `2^63` they always differ. -/
theorem aluFlags_sub_SF_ne_OF_of_min {x y : Word} (h : x.toNat = 2 ^ 63) :
    ((aluFlags .sub x y).SF != (aluFlags .sub x y).OF) = true := by
  have hy := toSigned64_bounds y
  have hdiff := toSigned64_bounds (y - x)
  have hx := toSigned64_eq_min_iff.2 h
  rw [bne_iff_ne, ne_eq, Bool.eq_iff_iff, aluFlags_sub_SF, aluFlags_sub_OF, subOverflowing_snd_of_min h]
  rcases toSigned64_sub y x with hd | ⟨ho, hd⟩ | ⟨ho, hd⟩ <;> omega

/-- The condition table (R90) from two tests of the flags: `l` where `SF` and `OF` differ, `e` where `ZF` is set. -/
theorem condHolds_iff {f : Flags} {less equal : Prop} (hl : (f.SF != f.OF) = true ↔ less)
    (he : f.ZF = true ↔ equal) :
    (condHolds .le f = true ↔ equal ∨ less) ∧ (condHolds .l f = true ↔ less) ∧ (condHolds .e f = true ↔ equal) ∧
      (condHolds .ne f = true ↔ ¬ equal) ∧ (condHolds .ge f = true ↔ equal ∨ ¬ less) ∧
      (condHolds .g f = true ↔ ¬ equal ∧ ¬ less) := by
  rw [← hl, ← he]
  obtain ⟨o, n, z⟩ := f
  cases o <;> cases n <;> cases z <;> decide

/-- Settles O43: `l` is the signed comparison, `e` equality, and the other rows are made of the two. -/
theorem conditionsAfterSubqCompareSigned : Obligations.ConditionsAfterSubqCompareSigned := by
  intro a b s t h hmin
  have hinj : s.reg b = s.reg a ↔ toSigned64 (s.reg b) = toSigned64 (s.reg a) :=
    ⟨congrArg toSigned64, toSigned64_injective⟩
  obtain ⟨hle, hl, he, hne, hge, hg⟩ := condHolds_iff (aluFlags_sub_SF_ne_OF hmin) (aluFlags_sub_ZF (s.reg a) (s.reg b))
  rw [flags_of_subq h]
  refine ⟨hle.trans ?_, hl, he, hne, hge.trans ?_, hg.trans ?_⟩
  all_goals rw [hinj]; omega

/-- Settles O44: `l` holds whatever the operands, and `e` decides the other rows. -/
theorem conditionsAfterSubqOfTheMinimum : Obligations.ConditionsAfterSubqOfTheMinimum := by
  intro a b s t h hmin
  have hinj : s.reg b = s.reg a ↔ (s.reg b).toNat = 2 ^ 63 := by
    rw [← hmin]
    exact BitVec.toNat_inj.symm
  obtain ⟨hle, hl, he, hne, hge, hg⟩ := condHolds_iff (iff_true_intro (aluFlags_sub_SF_ne_OF_of_min hmin))
    ((aluFlags_sub_ZF (s.reg a) (s.reg b)).trans hinj)
  simp only [← flags_of_subq h] at hle hl he hne hge hg
  have hg' : condHolds .g t.flags = false := Bool.eq_false_iff.2 fun hc => (hg.1 hc).2 trivial
  refine ⟨hl.2 trivial, fun hb => ⟨hle.2 (.inr trivial), ?_, hg'⟩,
    fun hb => ⟨he.2 hb, hle.2 (.inl hb), hge.2 (.inl hb), hg', ?_⟩⟩
  · exact Bool.eq_false_iff.2 fun hc => (hge.1 hc).elim hb (· trivial)
  · exact Bool.eq_false_iff.2 fun hc => hne.1 hc hb

end Sys2Proof.Machine

/-! SUPPORT. `halt`, the moves and the jumps (`spec/40_step_halt_nop.md` R82, `spec/41_moves_and_conditions.md` R91 to
R98, `spec/44_jumps.md` R140 to R147). -/

namespace Sys2Proof.Machine

/-! ## The address after an instruction (R55) -/

theorem State.valP_R (s : State) : s.valP .R = s.pc + 2 := rfl

theorem State.valP_D (s : State) : s.valP .D = s.pc + 9 := rfl

theorem State.valP_I (s : State) : s.valP .I = s.pc + 10 := rfl

/-! ## The condition table in words (R90) -/

theorem condHolds_le_iff (f : Flags) : condHolds .le f = true ↔ f.ZF = true ∨ f.SF ≠ f.OF := by simp [condHolds]

theorem condHolds_l_iff (f : Flags) : condHolds .l f = true ↔ f.SF ≠ f.OF := by simp [condHolds]

theorem condHolds_e_iff (f : Flags) : condHolds .e f = true ↔ f.ZF = true := Iff.rfl

theorem condHolds_ne_iff (f : Flags) : condHolds .ne f = true ↔ f.ZF = false := by simp [condHolds]

theorem condHolds_ge_iff (f : Flags) : condHolds .ge f = true ↔ f.ZF = true ∨ f.SF = f.OF := by simp [condHolds]

theorem condHolds_g_iff (f : Flags) : condHolds .g f = true ↔ f.ZF = false ∧ f.SF = f.OF := by simp [condHolds]

/-! ## `halt` and the immediate move -/

/-- Settles O28: `halt` writes the status alone. -/
theorem haltStopsInPlace : Obligations.HaltStopsInPlace := fun s =>
  ⟨_, exec_halt s, rfl, rfl, fun _ _ => rfl, rfl, rfl, fun _ => rfl⟩

/-- A register write and then `pc` keep the flags, the status, the parameters and the other registers. -/
theorem keepsRest_setReg_setPc (s : State) (r : Reg) (v w : Word) : KeepsRest [r] s ((s.setReg r v).setPc w) :=
  ⟨fun _ hq => State.reg_setReg_ne s v (by simpa using hq), rfl, rfl, rfl⟩

/-- Settles O31: `irmovq` writes its register and `pc`, and never looks at the ignored nibble. -/
theorem irmovqLoadsTheConstant : Obligations.IrmovqLoadsTheConstant := fun x b v s =>
  ⟨_, exec_of_completes (.irmovq x b v s), State.reg_setReg_self s b v, s.valP_I, keepsRest_setReg_setPc s b v _,
    fun _ => rfl⟩

/-! ## The rows of opcodes 2 and 7 -/

theorem movesIf_of_moveRows {row : CondFn × (RegSpec → RegSpec → Instr)} (hrow : row ∈ moveRows) {p : Flags → Prop}
    (hp : ∀ f, condHolds row.1 f = true ↔ p f) : MovesIf row.2 p := by
  intro a b s
  refine ⟨_, exec_of_moveRows hrow a b s, ?_⟩
  rw [← hp]
  cases condHolds row.1 s.flags with
  | true => exact ⟨fun _ => State.reg_setReg_self s b _, fun hn => absurd rfl hn, s.valP_R,
      keepsRest_setReg_setPc s b _ _, fun _ => rfl⟩
  | false => exact ⟨nofun, fun _ => rfl, s.valP_R, ⟨fun _ _ => rfl, rfl, rfl, rfl⟩, fun _ => rfl⟩

/-- Settles O30: each instruction with its row of the condition table. -/
theorem registerMovesFollowTheConditionTable : Obligations.RegisterMovesFollowTheConditionTable := by
  refine ⟨movesIf_of_moveRows (row := (.always, .rrmovq)) ?_ fun _ => iff_true_intro rfl,
    movesIf_of_moveRows (row := (.le, .cmovle)) ?_ condHolds_le_iff,
    movesIf_of_moveRows (row := (.l, .cmovl)) ?_ condHolds_l_iff,
    movesIf_of_moveRows (row := (.e, .cmove)) ?_ condHolds_e_iff,
    movesIf_of_moveRows (row := (.ne, .cmovne)) ?_ condHolds_ne_iff,
    movesIf_of_moveRows (row := (.ge, .cmovge)) ?_ condHolds_ge_iff,
    movesIf_of_moveRows (row := (.g, .cmovg)) ?_ condHolds_g_iff⟩
  all_goals simp [moveRows]

theorem jumpsIf_of_jumpRows {row : CondFn × (Word → Instr)} (hrow : row ∈ jumpRows) {b0 : Byte}
    (hb : ∀ dest, encode (row.2 dest) = b0 :: wordBytes dest) {p : Flags → Prop}
    (hp : ∀ f, condHolds row.1 f = true ↔ p f) : JumpsIf b0 row.2 p := by
  refine ⟨fun dest rest => ?encoding, fun dest s => ⟨_, exec_of_jumpRows hrow dest s, ?_, ?_, keepsRest_setPc s _,
    sameMem_setPc s _⟩⟩
  case encoding => rw [← List.cons_append, ← hb, decodeOfEncodeIsTheInstruction]
  · exact fun h => if_pos ((hp _).2 h)
  · exact fun h => (if_neg fun hc => h ((hp _).1 hc)).trans s.valP_D

/-- Settles O45: each jump with its byte and its row of the condition table. -/
theorem jumpsFollowTheConditionTable : Obligations.JumpsFollowTheConditionTable := by
  refine ⟨jumpsIf_of_jumpRows (row := (.always, .jmp)) ?_ (fun _ => rfl) fun _ => iff_true_intro rfl,
    jumpsIf_of_jumpRows (row := (.le, .jle)) ?_ (fun _ => rfl) condHolds_le_iff,
    jumpsIf_of_jumpRows (row := (.l, .jl)) ?_ (fun _ => rfl) condHolds_l_iff,
    jumpsIf_of_jumpRows (row := (.e, .je)) ?_ (fun _ => rfl) condHolds_e_iff,
    jumpsIf_of_jumpRows (row := (.ne, .jne)) ?_ (fun _ => rfl) condHolds_ne_iff,
    jumpsIf_of_jumpRows (row := (.ge, .jge)) ?_ (fun _ => rfl) condHolds_ge_iff,
    jumpsIf_of_jumpRows (row := (.g, .jg)) ?_ (fun _ => rfl) condHolds_g_iff⟩
  all_goals simp [jumpRows]

end Sys2Proof.Machine

/-! SUPPORT. The memory moves and the stack (`spec/20_memory.md` R31 to R37, `spec/42_memory_moves.md` R110 to R112,
`spec/45_stack_call.md` R149 to R153). -/

namespace Sys2Proof.Machine

/-! ## Words in memory (R31) -/

theorem holdsWord_iff {s : State} {addr v : Word} : HoldsWord s addr v ↔ s.mem.readWord addr.toNat = v := by
  constructor
  · exact Memory.readWord_eq
  · rintro rfl i hi
    exact (Memory.wordByte_readWord s.mem addr.toNat hi).symm

theorem holdsWord_readWord (s : State) (addr : Word) : HoldsWord s addr (s.mem.readWord addr.toNat) :=
  holdsWord_iff.2 rfl

/-- A state whose memory is the old one with a word stored holds the word. -/
theorem holdsWord_of_mem_eq {s t : State} {addr v : Word} (hwf : s.mem.wf = true)
    (h : t.mem = s.mem.writeWord addr.toNat v) : HoldsWord t addr v :=
  holdsWord_iff.2 (by rw [h, Memory.readWord_writeWord _ v hwf])

/-- `EA` of R110 on unbounded integers. -/
theorem effAddr_toNat (s : State) (b : Reg) (d : Word) :
    (effAddr s b d).toNat = ((s.reg b).toNat + d.toNat) % 2 ^ 64 := BitVec.toNat_add _ _

/-- Inside memory a small offset does not wrap: memory has at most `2^63` bytes (R4). -/
theorem toNat_add_ofNat {s : State} {addr : Word} {k : Nat} (hok : s.cfg.Ok) (h : addr.toNat + k ≤ s.cfg.memSize) :
    (addr + BitVec.ofNat 64 k).toNat = addr.toNat + k := by
  have hsize := hok.2
  rw [BitVec.toNat_add, BitVec.toNat_ofNat, Nat.add_mod_mod, Nat.mod_eq_of_lt (by omega)]

/-! ## The store and the load -/

/-- Settles O32: in bounds `rmmovq` writes one word and `pc`. -/
theorem rmmovqStoresTheRegister : Obligations.RmmovqStoresTheRegister := fun _ b d s hwf hb =>
  ⟨_, exec_rmmovq_ok hb, effAddr_toNat s b d, holdsWord_of_mem_eq hwf rfl, s.valP_I, ⟨fun _ _ => rfl, rfl, rfl, rfl⟩,
    sameMemOutside_of_mem_eq hwf rfl⟩

/-- Settles O33: in bounds `mrmovq` writes one register, with the word at the address, and `pc`. -/
theorem mrmovqLoadsTheWord : Obligations.MrmovqLoadsTheWord := by
  intro a b d s hb
  refine ⟨_, exec_mrmovq_ok hb, effAddr_toNat s b d, ?loaded, s.valP_I, keepsRest_setReg_setPc s a _ _, fun _ => rfl⟩
  case loaded =>
    rw [State.setPc_reg, State.reg_setReg_self]
    exact holdsWord_readWord s _

/-- Settles O36: each byte of the word read lies inside the store or behind it. -/
theorem overlappingReadSeesTheStore : Obligations.OverlappingReadSeesTheStore := by
  rintro s t addr v k ⟨hok, hwf, _, _⟩ hk hstore hb
  obtain rfl := Except.ok.inj ((memWrite_ok (s := s) (v := v) (by omega)).symm.trans hstore)
  have haddr : (addr + BitVec.ofNat 64 k).toNat = addr.toNat + k := toNat_add_ofNat hok (by omega)
  refine ⟨_, memRead_ok (by rw [haddr]; exact hb), fun i hi => ?inside, fun i hi => ?behind⟩
  all_goals rw [haddr, State.setMem_mem]
  case inside =>
    refine (Memory.wordByte_readWord _ _ (by omega)).trans ?_
    rw [Nat.add_assoc, Nat.add_comm k i]
    exact Memory.read_writeWord_inside v hwf (by omega)
  case behind =>
    refine (Memory.wordByte_readWord _ _ (by omega)).trans ?_
    rw [show addr.toNat + k + (8 - k + i) = addr.toNat + 8 + i by omega]
    exact Memory.read_writeWord_outside v hwf (.inr (by omega))

/-- Settles O37: the eight bytes at the next `pc` are the bytes stored, and they are enough for the fetch. -/
theorem storedBytesAreFetched : Obligations.StoredBytesAreFetched := by
  intro a b d s j rest hr hwf haddr hb hd
  refine ⟨_, exec_rmmovq_ok hb, stepRunsTheDecodedInstruction _ 8 j rest hr ?bound ?bytes⟩
  case bound => exact haddr ▸ hb
  case bytes =>
    rw [State.setPc_pc, State.valP_I, ← haddr]
    exact (Memory.readBytes_writeBytes (effAddr s b d).toNat (wordBytes (s.reg a)) hwf).symm ▸ hd

/-! ## The constant of an instruction as data (R53) -/

/-- Where the encoding of the fetched instruction ends in the bytes of a word, a load there gives the word. -/
theorem memRead_of_fetch {s : State} {i : Instr} {hd : List Byte} {v : Word} (hok : s.cfg.Ok) (hf : fetch s = .ok i)
    (he : encode i = hd ++ wordBytes v) : memRead s (s.pc + BitVec.ofNat 64 hd.length) = .ok v := by
  have hb := (fetch_eq_ok_iff.1 hf).1
  rw [← length_encode, he, List.length_append, length_wordBytes] at hb
  have haddr : (s.pc + BitVec.ofNat 64 hd.length).toNat = s.pc.toNat + hd.length := toNat_add_ofNat hok (by omega)
  rw [memRead_ok (by omega), haddr, Memory.readWord_eq]
  intro k hk
  have hread := read_of_fetch hf (k := hd.length + k) (by rw [he]; simpa using hk)
  simp only [he, List.getElem_append_right (Nat.le_add_right _ _), Nat.add_sub_cancel_left, wordBytes_getElem] at hread
  rw [Nat.add_assoc, hread]

theorem encode_of_jumpRows : ∀ p ∈ jumpRows, ∀ dest, ∃ b0, encode (p.2 dest) = b0 :: wordBytes dest := by
  simp [jumpRows, encode]

/-- Settles O18: in each of the eleven encodings the constant stands last. -/
theorem constantReadsAsData : Obligations.ConstantReadsAsData := by
  refine fun s hok => ⟨fun x b v hf => ?_, fun a b d hf => ?_, fun a b d hf => ?_, fun p hp dest hf => ?_,
    fun dest hf => ?_⟩
  · exact memRead_of_fetch (hd := [Op.irmovq.byte, regByte x b]) hok hf rfl
  · exact memRead_of_fetch (hd := [Op.rmmovq.byte, regByte a b]) hok hf rfl
  · exact memRead_of_fetch (hd := [Op.mrmovq.byte, regByte a b]) hok hf rfl
  · obtain ⟨b0, he⟩ := encode_of_jumpRows p hp dest
    exact memRead_of_fetch (hd := [b0]) hok hf he
  · exact memRead_of_fetch (hd := [Op.call.byte]) hok hf rfl

end Sys2Proof.Machine

/-! SUPPORT. `call`, `ret`, `pushq`, `popq` and targets outside memory (`spec/45_stack_call.md` R149 to R153, decisions
D14, D17, D18, D27). -/

namespace Sys2Proof.Machine

/-! ## One instruction -/

/-- A store, a register write and then `pc` keep the flags, the status, the parameters and the other registers. -/
theorem keepsRest_setMem_setReg_setPc (s : State) (m : Memory) (r : Reg) (v w : Word) :
    KeepsRest [r] s (((s.setMem m).setReg r v).setPc w) :=
  keepsRest_setReg_setPc (s.setMem m) r v w

theorem reg_setReg_setPc (s : State) (r : Reg) (v w : Word) : ((s.setReg r v).setPc w).reg r = v :=
  State.reg_setReg_self s r v

/-- Settles O47: in bounds `call` pushes the address behind it and writes the target. -/
theorem callPushesTheReturnAddress : Obligations.CallPushesTheReturnAddress := fun _ s hwf hb =>
  ⟨_, exec_call_ok hb, rfl, holdsWord_of_mem_eq hwf rfl, reg_setReg_setPc _ _ _ _, rfl,
    keepsRest_setMem_setReg_setPc s _ _ _ _, sameMemOutside_of_mem_eq hwf rfl⟩

/-- Settles O48: in bounds `ret` writes the word at the stack pointer to `pc` and moves the pointer. -/
theorem retPopsTheProgramCounter : Obligations.RetPopsTheProgramCounter := fun s hb =>
  ⟨_, exec_ret_ok hb, holdsWord_readWord s _, reg_setReg_setPc _ _ _ _, keepsRest_setReg_setPc s _ _ _, fun _ => rfl⟩

theorem pushValue_of_old {s : State} {a : Reg} (h : a ≠ .rsp ∨ s.cfg.pushqSp = .old) : pushValue s a = s.reg a := by
  unfold pushValue
  split
  next ha =>
    subst ha
    rw [h.resolve_left (not_not_intro rfl)]
  next => rfl

theorem pushValue_of_new {s : State} (h : s.cfg.pushqSp = .new) : pushValue s .rsp = pushAddr s := by
  rw [pushValue, if_pos rfl, h]

/-- Settles O49: in bounds `pushq` pushes `pushValue`, which the parameter decides for `%rsp` alone. -/
theorem pushqStoresTheRegister : Obligations.PushqStoresTheRegister := by
  intro a x s hwf hb
  refine ⟨_, exec_pushq_ok hb, rfl, fun hold => ?old, ?new, reg_setReg_setPc _ _ _ _, s.valP_R,
    keepsRest_setMem_setReg_setPc s _ _ _ _, sameMemOutside_of_mem_eq hwf rfl⟩
  case old => exact holdsWord_of_mem_eq hwf (by rw [← pushValue_of_old hold]; rfl)
  case new =>
    rintro ⟨rfl, hnew⟩
    exact holdsWord_of_mem_eq hwf (by rw [← pushAddr, ← pushValue_of_new hnew]; rfl)

theorem popInto_reg_ne_rsp (t : State) {a : Reg} (v : Word) (h : a ≠ .rsp) :
    (popInto t a v).reg a = v ∧ (popInto t a v).reg .rsp = t.reg .rsp := by
  rw [popInto_ne t v h]
  exact ⟨State.reg_setReg_self t a v, State.reg_setReg_ne t v h.symm⟩

theorem popInto_reg_rsp (t : State) (v : Word) :
    (popInto t .rsp v).reg .rsp =
      match t.cfg.popqSp with
      | .loaded => v
      | .loadedPlus8 => v + 8
      | .oldPlus8 => t.reg .rsp := by
  rw [popInto, if_pos rfl]
  cases t.cfg.popqSp with
  | loaded | loadedPlus8 => exact State.reg_setReg_self t .rsp _
  | oldPlus8 => rfl

/-- Settles O50: in bounds `popq` moves the stack pointer and then writes its register by `popInto`, which asks the
parameter for `%rsp` alone. -/
theorem popqLoadsTheRegister : Obligations.PopqLoadsTheRegister := by
  intro a x s hb
  refine ⟨_, _, exec_popq_ok hb, holdsWord_readWord s _, fun ha => ?other, ?rsp, s.valP_R, ?rest, ?memory⟩
  case other =>
    obtain ⟨hreg, hrsp⟩ := popInto_reg_ne_rsp (s.setReg .rsp (s.reg .rsp + 8))
      (s.mem.readWord (popAddr s).toNat) ha
    exact ⟨hreg, hrsp.trans (State.reg_setReg_self s .rsp _)⟩
  case rsp =>
    rintro rfl
    refine (popInto_reg_rsp ..).trans ?_
    rw [State.setReg_cfg, State.reg_setReg_self]
    rfl
  case rest =>
    exact ⟨(Completes.popq a none hb).sameRegsBut, by simp, by simp, by simp⟩
  case memory => exact sameMem_of_mem_eq (by simp)

/-! ## Two instructions -/

theorem HoldsWord.unique {s : State} {addr v w : Word} (hv : HoldsWord s addr v) (hw : HoldsWord s addr w) : v = w :=
  (holdsWord_iff.1 hv).symm.trans (holdsWord_iff.1 hw)

/-- Settles O51: the eight bytes at the stack pointer still hold the return address. -/
theorem retUndoesCall : Obligations.RetUndoesCall := by
  rintro dest s t u ⟨_, hwf, _, _⟩ hb hcall hcfg hrsp hbytes
  obtain ⟨t', hcall', _, hpushed, hpushRsp, _, ⟨_, _, _, htcfg⟩, _⟩ := callPushesTheReturnAddress dest s hwf hb
  obtain rfl := Host.Outcome.next.inj (hcall'.symm.trans hcall)
  have haddr : u.reg .rsp = pushAddr s := hrsp.trans hpushRsp
  obtain ⟨v, hret, hpopped, hpopRsp, _⟩ := retPopsTheProgramCounter u (by rwa [haddr, hcfg, htcfg])
  have hkept : HoldsWord u (u.reg .rsp) (s.pc + 9) := fun i hi => by
    rw [hrsp, hbytes i hi, hpushRsp]
    exact hpushed i hi
  refine ⟨v, hret, hpopped.unique hkept, ?_⟩
  rw [hpopRsp, haddr, pushAddr, BitVec.sub_add_cancel]

/-- Settles O52: the pop reads the word just pushed and moves the stack pointer back. -/
theorem popqUndoesPushq : Obligations.PopqUndoesPushq := by
  rintro a b x y s t ⟨_, hwf, _, _⟩ ha hb hbound hpush
  obtain ⟨t', hpush', _, hpushed, _, hpushRsp, _, ⟨hpushRegs, _, _, htcfg⟩, _⟩ :=
    pushqStoresTheRegister a x s hwf hbound
  obtain rfl := Host.Outcome.next.inj (hpush'.symm.trans hpush)
  have haddr : t'.reg .rsp = pushAddr s := hpushRsp
  obtain ⟨v, w, hpop, hpopped, hother, _, _, ⟨hpopRegs, _⟩, _⟩ :=
    popqLoadsTheRegister b y t' (by rwa [haddr, htcfg])
  obtain ⟨hloaded, hpopRsp⟩ := hother hb
  have hrsp : v.reg .rsp = s.reg .rsp := by rw [hpopRsp, hpushRsp, BitVec.sub_add_cancel]
  refine ⟨v, hpop, ?moved, hrsp, fun r hr => ?others⟩
  case moved =>
    rw [hloaded]
    exact hpopped.unique (haddr ▸ hpushed (.inl ha))
  case others =>
    by_cases hr' : r = .rsp
    · exact hr' ▸ hrsp
    · rw [hpopRegs r (by simp [hr, hr']), hpushRegs r (by simp [hr'])]

/-! ## Targets outside memory (D27) -/

/-- Whatever instruction wrote it, a `pc` outside memory faults in the next step. -/
theorem transfersThenFaults_of_exec {i : Instr} {dest : Word} {s t : State} (h : exec i s = .next t)
    (hsize : t.cfg.memSize ≤ dest.toNat) (hpc : t.pc = dest) (hr : t.status = .running) :
    TransfersThenFaults i dest s t :=
  ⟨h, hpc, hr, step_of_le hr (hpc ▸ hsize)⟩

/-- Settles O46: the three transfers complete, and the fetch of the next step fails. -/
theorem targetOutsideMemoryFaultsNextStep : Obligations.TargetOutsideMemoryFaultsNextStep := by
  intro dest s hr hsize
  refine ⟨fun p hp hc => ?jump, fun hwf hb => ?call, fun hb hword => ?ret⟩
  case jump => exact ⟨_, transfersThenFaults_of_exec (exec_of_jumpRows hp dest s) hsize (if_pos hc) hr⟩
  case call =>
    exact ⟨_, transfersThenFaults_of_exec (exec_call_ok hb) hsize rfl hr, holdsWord_of_mem_eq hwf rfl,
      reg_setReg_setPc _ _ _ _⟩
  case ret =>
    exact ⟨_, transfersThenFaults_of_exec (exec_ret_ok hb) hsize (holdsWord_iff.1 hword) hr,
      reg_setReg_setPc _ _ _ _⟩

end Sys2Proof.Machine
